-- ==== Sys2Proof/Word.lean ====
section
/-!
DEFINITION. The words of the Huffman decoder engine and the two kinds of entry its book holds
(spec/00_scope.md R7, spec/10_state.md R22, R23). All values are unsigned (R11).
-/

namespace Sys2Proof

/-- An 8-bit value: a command byte, a request byte, a length operand (R7, R94, R100). -/
abbrev Byte := BitVec 8

/-- A 32-bit operand (R7). -/
abbrev Word := BitVec 32

/-- A symbol identifier (R7, R12): unsigned, 32 bits. -/
abbrev Symbol := Word

/-- A code pattern (R7, R80): unsigned, 32 bits, the code in its low bits. -/
abbrev Pattern := Word

/-- The handle by which a command names a cursor (R94). The spec gives handles no width.
DESIGN CHOICE (log 21): a natural number. -/
abbrev CursorId := Nat

/-- One entry of the table `PT` (R22): `Invalid` is a value of its own, distinct from every pair. -/
inductive PrefixEntry where
  | invalid
  | hit (symbol : Symbol) (length : Nat)
deriving DecidableEq, Repr, Inhabited

/-- One pair of a bucket (R23, R85): the full 32-bit pattern and the symbol; the length is not stored. -/
structure BucketPair where
  code   : Pattern
  symbol : Symbol
deriving DecidableEq, Repr, Inhabited

end Sys2Proof
end

