-- ==== Sys2Proof/Config.lean ====
section
/-!
DEFINITION. What an engine instance fixes (spec/00_scope.md R5 to R8, the open parameters at the end of
spec/92_eei_decisions.md) and the free values: what the spec leaves "any value" (spec/93_implementation_defined.md
U6, U9). A free value is a constant without a body, so a claim holds for every value of it.
-/

namespace Sys2Proof

/-- The bound `LMAX` on code lengths (R6). -/
def lmax : Nat := 32

/-- The parameters of an engine instance. They are held in `State` and no step writes them (R5, R21; log 3).
`P` carries its range (R5, U14: an instance outside it does not exist). -/
structure Params where
  /-- prefix width: `PT` has `2^P` entries (R5, R21) -/
  P : Nat
  P_pos : 1 ≤ P
  P_le : P ≤ 32
  /-- `NMAX`, the largest entry count of a build (R8) -/
  nmax : Word
  /-- `CURSOR_CAN_FAIL` (D15) -/
  cursorCanFail : Bool
  /-- `LSB_CODES_REVERSED`, the alternative reading of D9 -/
  lsbCodesReversed : Bool
deriving DecidableEq, Repr

/-- The parameters with a given width and every other open parameter at the default of
spec/92_eei_decisions.md. -/
def Params.ofWidth (P : Nat) (hpos : 1 ≤ P) (hle : P ≤ 32) : Params :=
  { P := P, P_pos := hpos, P_le := hle, nmax := 0xFFFFFFFF#32, cursorCanFail := false, lsbCodesReversed := false }

/-- Every open parameter at its default: `P = 8` (R5). -/
def Params.default : Params := Params.ofWidth 8 (by decide) (by decide)

namespace Config

/-- FREE VALUE (R58, U6; log 6): the pad bit that the cursor with this pad identity delivers at a position past
the host's payload. It depends on the position alone, so that repeated peeks agree (R56). -/
opaque padBit : Nat → Nat → Bool

/-- FREE VALUE (R36, R119, U9; log 5): `PT[j]` after the contents of the book became unspecified, for the draw
and the index `j`. -/
opaque staleEntry : Nat → Nat → PrefixEntry

/-- FREE VALUE (R36, R119, U9; log 5): `BK[b]` after the contents of the book became unspecified, for the draw
and the bucket number `b`. -/
opaque staleBucket : Nat → Nat → List BucketPair

/-- FREE VALUE (R36, R119, U9; log 5): `MAXLEN` after the contents of the book became unspecified. -/
opaque staleMaxLen : Nat → Nat

end Config
end Sys2Proof
end

