-- ==== Sys2Proof/Syntax.lean ====
section
/-!
DEFINITION. The instructions of spec/opcode_table.json: three commands (spec/30_encoding.md R94) and three cursor
requests (R100), with their operands, and the form in which a command or a request is handed over.
-/

namespace Sys2Proof

/-- Entry `i` of the explicit table without its symbol: `code[i]`, `length[i]` (R82, R110). -/
structure CodeEntry where
  code   : Pattern
  length : Byte
deriving DecidableEq, Repr

/-- The explicit-table operand (R82). One count sizes all arrays, so arrays of different sizes cannot be
written (D19). -/
inductive TableOperand where
  /-- `S = 0`: no `symbols` array -/
  | indexed (entries : List CodeEntry)
  /-- `S = 1`: `symbols[i]` beside entry `i` -/
  | named (entries : List (CodeEntry × Symbol))
deriving DecidableEq, Repr

/-- `codeCount` (R82). -/
def TableOperand.count : TableOperand → Nat
  | .indexed es => es.length
  | .named es => es.length

/-- Pair `i` of the frequency operand: `sym[i]`, `freq[i]` (R83). -/
structure FreqPair where
  symbol : Symbol
  freq   : Word
deriving DecidableEq, Repr

/-- One constructor for each row of spec/opcode_table.json. A bit count is in `0..32`: the counts 33 to 63 are
never issued and "a model's types have no such values" (U12). A request names the cursor it is issued to. -/
inductive Instr where
  | buildTable (maxLength : Byte) (table : TableOperand)
  | buildFreq (pairs : List FreqPair)
  | decode (c : CursorId)
  | isMsbFirst (c : CursorId)
  | peekBits (c : CursorId) (n : Fin 33)
  | skip (c : CursorId) (n : Fin 33)
deriving DecidableEq, Repr

/-- One operand of a command: a whole number of 8 or 32 bits, or a cursor handle. The spec fixes no byte order or
packing for operands (R94), and neither does the model (log 2). -/
inductive Operand where
  | byte (v : Byte)
  | word (v : Word)
  | cursor (h : CursorId)
deriving DecidableEq, Repr

/-- What is handed over at one of the two interfaces (R101): a command byte and its operands in the order of R94,
or a request byte for a cursor (R100). -/
inductive Transaction where
  | command (cmd : Byte) (operands : List Operand)
  | request (c : CursorId) (req : Byte)
deriving DecidableEq, Repr

end Sys2Proof
end

