-- ==== Sys2Proof/WellFormed.lean ====
section
/-!
DEFINITION. Which instructions can be presented: an array's count is a 32-bit operand (spec/00_scope.md R7,
spec/30_encoding.md R82, R83). Every other width is carried by the types.
-/

namespace Sys2Proof

/-- The instruction fits its operand widths. -/
def Instr.wellFormed : Instr → Bool
  | .buildTable _ t => decide (t.count < 2 ^ 32)
  | .buildFreq ps => decide (ps.length < 2 ^ 32)
  | .decode _ => true
  | .isMsbFirst _ => true
  | .peekBits _ _ => true
  | .skip _ _ => true

end Sys2Proof
end

