-- ==== Sys2Proof/Decode.lean ====
section
/-!
DEFINITION. The decoder and, after it, the encoder: spec/30_encoding.md R94, R96, R100, R101 (commands and requests),
R84, R85 (the layouts of table and bucket entries).
-/

namespace Sys2Proof

/-- Why a transaction is no instruction. -/
inductive DecodeError where
  /-- an illegal `CMD` byte (R96): the machine answers it with `IllegalCommand` -/
  | illegalCommand
  /-- a legal `CMD` byte whose operands are not those its row names: the spec gives it no meaning (log 2) -/
  | malformedOperands
  /-- a `REQ` byte that is never issued (R100, U12) -/
  | reservedRequest
deriving DecidableEq, Repr

/-- What a legal `CMD` byte selects (R94). -/
inductive Opcode where
  | buildTable (symbols : Bool)
  | buildFreq
  | decode
deriving DecidableEq, Repr

/-- R94, R96: `op = CMD[1:0]`, `S = CMD[2]`, `CMD[7:3]` zero; `none` for an illegal byte. -/
def decodeCmdByte (cmd : Byte) : Option Opcode :=
  let op := cmd.extractLsb' 0 2
  let s := cmd.getLsbD 2
  if cmd.extractLsb' 3 5 ≠ 0#5 then none
  else if op = 1#2 then some (.buildTable s)
  else if s then none
  else if op = 2#2 then some .buildFreq
  else if op = 3#2 then some .decode
  else none

/-- Take an array of `n` 32-bit operands off the front. -/
def takeWords : Nat → List Operand → Option (List Word × List Operand)
  | 0, ops => some ([], ops)
  | n + 1, .word v :: ops =>
    match takeWords n ops with
    | some (vs, rest) => some (v :: vs, rest)
    | none => none
  | _ + 1, _ => none

/-- Take an array of `n` 8-bit operands off the front. -/
def takeBytes : Nat → List Operand → Option (List Byte × List Operand)
  | 0, ops => some ([], ops)
  | n + 1, .byte v :: ops =>
    match takeBytes n ops with
    | some (vs, rest) => some (v :: vs, rest)
    | none => none
  | _ + 1, _ => none

/-- The arrays of `BUILD_TABLE` after `maxLength` and `codeCount`, nothing left over (R94). -/
def decodeTable (symbols : Bool) (count : Nat) (ops : List Operand) : Option TableOperand :=
  match takeWords count ops with
  | none => none
  | some (codes, ops) =>
    match takeBytes count ops with
    | none => none
    | some (lengths, ops) =>
      let entries := List.zipWith CodeEntry.mk codes lengths
      if symbols then
        match takeWords count ops with
        | some (syms, []) => some (.named (List.zip entries syms))
        | _ => none
      else
        match ops with
        | [] => some (.indexed entries)
        | _ :: _ => none

/-- The arrays of `BUILD_FREQ` after `n`, nothing left over (R94). -/
def decodePairs (n : Nat) (ops : List Operand) : Option (List FreqPair) :=
  match takeWords n ops with
  | none => none
  | some (syms, ops) =>
    match takeWords n ops with
    | some (freqs, []) => some (List.zipWith FreqPair.mk syms freqs)
    | _ => none

/-- The operands of a legal command (R94). -/
def decodeOperands : Opcode → List Operand → Option Instr
  | .buildTable symbols, .byte maxLength :: .word count :: ops =>
    match decodeTable symbols count.toNat ops with
    | some t => some (.buildTable maxLength t)
    | none => none
  | .buildFreq, .word n :: ops =>
    match decodePairs n.toNat ops with
    | some ps => some (.buildFreq ps)
    | none => none
  | .decode, [.cursor h] => some (.decode h)
  | _, _ => none

/-- A command (R94, R96): the byte is judged before any operand is read. -/
def decodeCommand (cmd : Byte) (ops : List Operand) : Except DecodeError Instr :=
  match decodeCmdByte cmd with
  | none => .error .illegalCommand
  | some op =>
    match decodeOperands op ops with
    | some i => .ok i
    | none => .error .malformedOperands

/-- A request (R100): `kind = REQ[7:6]`, `n = REQ[5:0]`. -/
def decodeRequest (c : CursorId) (req : Byte) : Except DecodeError Instr :=
  let kind := req.extractLsb' 6 2
  let n := (req.extractLsb' 0 6).toNat
  if kind = 0#2 then
    if n = 0 then .ok (.isMsbFirst c) else .error .reservedRequest
  else if h : n < 33 then
    if kind = 1#2 then .ok (.peekBits c ⟨n, h⟩)
    else if kind = 2#2 then .ok (.skip c ⟨n, h⟩)
    else .error .reservedRequest
  else .error .reservedRequest

/-- The decoder: total, and it rejects by name. -/
def decode : Transaction → Except DecodeError Instr
  | .command cmd ops => decodeCommand cmd ops
  | .request c req => decodeRequest c req

/-! The encoder, from the same tables. -/

/-- The byte of an opcode (R94). -/
def Opcode.cmdByte : Opcode → Byte
  | .buildTable false => 0x01#8
  | .buildTable true => 0x05#8
  | .buildFreq => 0x02#8
  | .decode => 0x03#8

/-- The byte of a request `PEEK_BITS n` or `SKIP n`: the kind in bits 7:6, the count in bits 5:0 (R100). -/
def reqByte (kind : BitVec 2) (n : Nat) : Byte :=
  kind ++ BitVec.ofNat 6 n

/-- `IS_MSB_FIRST`, `PEEK_BITS n`, `SKIP n` as bytes (R100). -/
def isMsbFirstReq : Byte := 0x00#8
def peekBitsReq (n : Nat) : Byte := reqByte 1#2 n
def skipReq (n : Nat) : Byte := reqByte 2#2 n

/-- The operands of `BUILD_TABLE` after `maxLength`, in the order of R94. -/
def encodeTable (t : TableOperand) : List Operand :=
  .word (BitVec.ofNat 32 t.count) ::
  match t with
  | .indexed es => es.map (.word ·.code) ++ es.map (.byte ·.length)
  | .named es => es.map (.word ·.1.code) ++ es.map (.byte ·.1.length) ++ es.map (.word ·.2)

/-- Whether the `S` bit is set (R94). -/
def TableOperand.hasSymbols : TableOperand → Bool
  | .indexed _ => false
  | .named _ => true

/-- The transaction of a well-formed instruction (R94, R100). -/
def encode : Instr → Transaction
  | .buildTable maxLength t => .command (Opcode.buildTable t.hasSymbols).cmdByte (.byte maxLength :: encodeTable t)
  | .buildFreq ps =>
    .command Opcode.buildFreq.cmdByte
      (.word (BitVec.ofNat 32 ps.length) :: (ps.map (.word ·.symbol) ++ ps.map (.word ·.freq)))
  | .decode c => .command Opcode.decode.cmdByte [.cursor c]
  | .isMsbFirst c => .request c isMsbFirstReq
  | .peekBits c n => .request c (peekBitsReq n.val)
  | .skip c n => .request c (skipReq n.val)

/-- The byte of a transaction: the word of its row in spec/opcode_table.json. -/
def Transaction.byte : Transaction → Byte
  | .command cmd _ => cmd
  | .request _ req => req

/-- `(match, mask)` of the instruction's row in spec/opcode_table.json (R101). -/
def Instr.row : Instr → Byte × Byte
  | .buildTable _ _ => (0x01#8, 0xFB#8)
  | .buildFreq _ => (0x02#8, 0xFF#8)
  | .decode _ => (0x03#8, 0xFF#8)
  | .isMsbFirst _ => (0x00#8, 0xFF#8)
  | .peekBits _ _ => (0x40#8, 0xC0#8)
  | .skip _ _ => (0x80#8, 0xC0#8)

/-! The words of spec/opcode_table.json, with every operand beyond the byte zero (log 23). -/

/-- The operands of a command whose operand bits are all zero: no array element, cursor handle 0. -/
def zeroOperands : Opcode → List Operand
  | .buildTable _ => [.byte 0#8, .word 0#32]
  | .buildFreq => [.word 0#32]
  | .decode => [.cursor 0]

/-- A row's byte as a transaction: on the command interface where it is a legal `CMD` byte, else as a request to
cursor 0. The two spaces do not collide (R101). -/
def tableTransaction (b : Byte) : Transaction :=
  match decodeCmdByte b with
  | some op => .command b (zeroOperands op)
  | none => .request 0 b

/-- The instruction the decoder reads from a word of the opcode table. -/
def decodeTableWord (nbits w : Nat) : Option Instr :=
  if nbits = 8 ∧ w < 2 ^ 8 then
    match decode (tableTransaction (BitVec.ofNat 8 w)) with
    | .ok i => some i
    | .error _ => none
  else none

/-! The bit layouts of the book's entries, where one is wanted (R84, R85; no rule depends on them). -/

/-- R84: bit 38 valid, bits 37:32 length, bits 31:0 symbol. With `valid = 0` the other bits mean nothing, and the
encoder writes zeros there. -/
def PrefixEntry.layout : PrefixEntry → BitVec 39
  | .invalid => 0#39
  | .hit symbol length => (1#1 ++ BitVec.ofNat 6 length) ++ symbol

/-- R84, read back. -/
def PrefixEntry.ofLayout (b : BitVec 39) : PrefixEntry :=
  if b.getLsbD 38 then .hit (b.extractLsb' 0 32) (b.extractLsb' 32 6).toNat else .invalid

/-- R85: 64 bits, code in the upper half, symbol in the lower. -/
def BucketPair.layout (p : BucketPair) : BitVec 64 := p.code ++ p.symbol

/-- R85, read back. -/
def BucketPair.ofLayout (b : BitVec 64) : BucketPair :=
  { code := b.extractLsb' 32 32, symbol := b.extractLsb' 0 32 }

end Sys2Proof
end

