-- ==== Sys2Proof/Machine/State.lean ====
section
/-!
DEFINITION. The state of the machine as plain data (spec/10_state.md): the CodeBook slot, the cursors the environment
owns, the interface, and `State.reset`. Also the reasons a step can stop.
-/

namespace Sys2Proof.Machine

/-- A bit cursor (R34). `payload` is the host's part of `stream(c)`; the bits after it are pad bits (R58), drawn
from `Config.padBit padId`. `msb` is the order in which `PeekBits` packs, `reportsMsb` what `IsMsbFirst` answers:
a truthful cursor has them equal (R52), and R214 says what a cursor that lies does (log 13). -/
structure Cursor where
  payload    : List Bool
  padId      : Nat
  pos        : Nat
  msb        : Bool
  reportsMsb : Bool
deriving DecidableEq, Repr

/-- The cursor under a handle that nothing has placed: no payload, position 0, MSB-first.
DESIGN CHOICE (log 7): the spec leaves cursors to the environment (R36). -/
def Cursor.fresh (h : CursorId) : Cursor :=
  { payload := [], padId := h, pos := 0, msb := true, reportsMsb := true }

/-- The hardware's outside memory (R59): one bit stream with its cursor for each handle, in canonical form
(`Memory.wf`): handles strictly rising, and no entry equal to what an unlisted handle reads as. -/
abbrev Memory := List (CursorId × Cursor)

/-- The CodeBook slot (R22, R23, R25). -/
structure CodeBook where
  maxLen : Nat
  pt     : List PrefixEntry
  bk     : List (List BucketPair)
deriving DecidableEq, Repr

/-- The errors of R170. -/
inductive EngineError where
  | emptyAlphabet
  | lengthOverflow
  | zeroLength
  | invalidCode
  | noBook
  | illegalCommand
deriving DecidableEq, Repr

/-- The response of a command (R95). A symbol is carried only by a `DECODE` with `OK` (D32). -/
inductive Response where
  | ok
  | okSymbol (symbol : Symbol)
  | error (e : EngineError)
deriving DecidableEq, Repr

/-- A request to a cursor with its reply (R100). -/
inductive Exchange where
  | isMsbFirst (c : CursorId) (reply : Bool)
  | peekBits (c : CursorId) (n : Nat) (reply : Word)
  | skip (c : CursorId) (n : Nat)
deriving DecidableEq, Repr

/-- What the host may do that leaves a launch without meaning. -/
inductive Hazard where
  /-- another agent uses the cursor during a `DECODE` (R61, R210) -/
  | sharedCursor
  /-- an operand array changes during a build (R64, R211) -/
  | operandsChanged
  /-- a command is issued before the response of the one before (R60, D22) -/
  | overlappedCommand
deriving DecidableEq, Repr

/-- One event from outside the engine (log 1). -/
inductive Input where
  /-- the host hands over a command, or a request to a cursor, with no hazard broken -/
  | launch (t : Transaction)
  /-- a reset between commands (R200) -/
  | reset
  /-- a reset inside a command, after it has issued its first `issued` requests (R201; log 9) -/
  | resetDuring (cmd : Byte) (operands : List Operand) (issued : Nat)
  /-- the host places a cursor of its own under a handle (R10; log 11) -/
  | place (c : CursorId) (cursor : Cursor)
  /-- the host repositions a cursor (R204 (4), R217; log 11) -/
  | seek (c : CursorId) (pos : Nat)
  /-- a launch during which the host breaks a hazard rule (R61, R64, D22; log 12) -/
  | brokenLaunch (h : Hazard) (t : Transaction)
deriving DecidableEq, Repr

/-- The state of the machine. -/
structure State where
  /-- constants of the instance (R21); no step writes them -/
  params    : Params
  /-- `BOOK_VALID` (R24) -/
  bookValid : Bool
  /-- `MAXLEN`, `PT`, `BK` (R22, R23, R25) -/
  slot      : CodeBook
  /-- the cursors, owned by the environment (R34) -/
  mem       : Memory
  /-- what the outside does next, oldest first (MODEL'S OWN, log 1) -/
  inbox     : List Input
  /-- the response of the command just executed (R95, log 8) -/
  response  : Option Response
  /-- the requests issued since the last acceptance, with their replies (R161, log 8) -/
  requests  : List Exchange
  /-- how often the contents of the book became unspecified (MODEL'S OWN, log 5) -/
  draws     : Nat
deriving DecidableEq, Repr

/-- `NBUCKETS` (R26): a function of `MAXLEN` and `P`. -/
def State.nbuckets (s : State) : Nat := s.slot.maxLen - s.params.P

/-- The state after reset (R36): `BOOK_VALID = 0`, `P` at its default. `MAXLEN`, `PT` and `BK` are unspecified
in R36. DESIGN CHOICE (log 4): 0, all `Invalid`, no bucket; no statement rests on them. The cursors are the
environment's; DESIGN CHOICE (log 7): none placed. -/
def State.reset : State :=
  { params := Params.default
    bookValid := false
    slot := { maxLen := 0, pt := List.replicate (2 ^ Params.default.P) .invalid, bk := [] }
    mem := []
    inbox := []
    response := none
    requests := []
    draws := 0 }

/-- Nothing stops this engine with a fault: "No error stops the engine or anything else" (R179). Every error of
R170 is a response, hence a next state; so the type has no constructor (log 19). Safe: no step hides behind it. -/
inductive Fault where
deriving DecidableEq, Repr

/-- Where the spec gives no meaning. Each is safe: the model stops where hardware may go on. -/
inductive Refusal where
  /-- raised by `exec` for an instruction without a meaning (none is left) -/
  | notModelled (mnemonic : String)
  /-- raised by both builds for more than `NMAX` entries (R8, U13) -/
  | overCapacity
  /-- raised by `BUILD_TABLE` for a table that passes R114 and breaks W1 or W2 (R112, U2, U3), and by `BUILD_FREQ`
  where it hands over such a table, only with `LSB_CODES_REVERSED` (R99, R141, log 14) -/
  | illFormedTable
  /-- raised by `PEEK_BITS`, and by `DECODE` when it would peek, where `CURSOR_CAN_FAIL` is true (D15, U7) -/
  | cursorMayFail
  /-- raised by `step` for a legal `CMD` byte with operands of another form than its row's (R94, log 2) -/
  | malformedOperands
  /-- raised by `step` for a `REQ` byte that is never issued (R100, U12) -/
  | reservedRequest
  /-- raised by `step` for a launch during which the host breaks a hazard rule (R61, R64, D22; U1, U15) -/
  | brokenHazard (h : Hazard)
deriving DecidableEq, Repr

end Sys2Proof.Machine
end

