-- ==== Sys2Proof/Machine/Operands.lean ====
section
/-!
DEFINITION. Bit strings, and the operand assembly of spec/30_encoding.md R86 to R92: symbol default, effective maximum
length, fill range, table index, working code, bucket number, bit append.
-/

namespace Sys2Proof.Machine

/-- `val(t)` (R11): the first bit is the most significant. -/
def val (t : List Bool) : Nat := t.foldl (fun a b => 2 * a + b.toNat) 0

/-- The value of a bit string whose first bit is the least significant (R50, LSB-first). -/
def lsbVal : List Bool → Nat
  | [] => 0
  | b :: t => b.toNat + 2 * lsbVal t

/-- `rev_n(v)` (R11). -/
def rev : Nat → Nat → Nat
  | 0, _ => 0
  | n + 1, v => (v % 2) * 2 ^ n + rev n (v / 2)

/-- `str_L(c)` (R11): the `L`-bit string of a number. -/
def str : Nat → Nat → List Bool
  | 0, _ => []
  | n + 1, c => (c / 2 ^ n % 2 == 1) :: str n (c % 2 ^ n)

/-- One entry on its way into the book. `length` is an exact number (R141: a builder's length is not cut to the
8 bits of the operand). -/
structure TableRow where
  code   : Pattern
  length : Nat
  symbol : Symbol
deriving DecidableEq, Repr

/-- Entries without symbols: the symbol of entry `i` is `i` (R86). -/
def indexedRows : Nat → List CodeEntry → List TableRow
  | _, [] => []
  | i, e :: es => { code := e.code, length := e.length.toNat, symbol := BitVec.ofNat 32 i } :: indexedRows (i + 1) es

/-- The entries of an explicit table with their symbols (R82, R86). -/
def tableRows : TableOperand → List TableRow
  | .indexed es => indexedRows 0 es
  | .named es => es.map fun e => { code := e.1.code, length := e.1.length.toNat, symbol := e.2 }

/-- `rev_L` of a row's code, for the alternative reading of D9. -/
def TableRow.reversed (r : TableRow) : TableRow :=
  { r with code := BitVec.ofNat 32 (rev r.length r.code.toNat) }

/-- The entries after their entry into `BUILD_TABLE`: each code is reversed when `LSB_CODES_REVERSED` is set (D9). -/
def enteredRows (p : Params) (rows : List TableRow) : List TableRow :=
  if p.lsbCodesReversed then rows.map TableRow.reversed else rows

/-- The effective maximum length `ml` (R87, R113). -/
def effectiveMax (maxLength : Nat) (rows : List TableRow) : Nat :=
  if maxLength ≠ 0 then maxLength else rows.foldr (fun r m => max r.length m) 0

/-- First index of the fill range (R88). -/
def fillStart (P : Nat) (r : TableRow) : Nat := r.code.toNat <<< (P - r.length)

/-- Size of the fill range (R88). -/
def fillCount (P : Nat) (r : TableRow) : Nat := 2 ^ (P - r.length)

/-- (W1) of R112: the pattern lies in its `length` low bits. -/
def TableRow.fits (r : TableRow) : Bool := decide (r.code.toNat < 2 ^ r.length)

/-- Two fill ranges share an index. -/
def rangesMeet (P : Nat) (r q : TableRow) : Bool :=
  decide (fillStart P r < fillStart P q + fillCount P q) && decide (fillStart P q < fillStart P r + fillCount P r)

/-- (W2) of R112 for one pair of entries. -/
def agree (P : Nat) (r q : TableRow) : Bool :=
  if r.length ≤ P ∧ q.length ≤ P ∧ rangesMeet P r q = true then
    decide (r.symbol = q.symbol) && decide (r.length = q.length)
  else true

/-- (W2) of R112 for every two entries. -/
def noConflict (P : Nat) : List TableRow → Bool
  | [] => true
  | r :: rs => rs.all (agree P r) && noConflict P rs

/-- Well-formed entries (R112). W1 is asked of the codes as they are supplied, W2 of the rows that are filled in (the
same rows, unless `LSB_CODES_REVERSED` is set, log 16). -/
def wellFormedRows (p : Params) (rows : List TableRow) : Bool :=
  rows.all TableRow.fits && noConflict p.P (enteredRows p rows)

/-- The table index of a decode (R89), from the reported order and the peeked value. -/
def tableIndex (P : Nat) (msb : Bool) (v : Nat) : Nat := if msb then v else rev P v

/-- The working code extended by one stream bit (R90). -/
def extendCode (w b : Nat) : Nat := (w <<< 1) ||| b

/-- The bucket of a code of length `L > P` (R91). -/
def bucketNumber (P L : Nat) : Nat := L - 1 - P

/-- Appending a bit to a leaf's code (R92): a bit that would land at position 32 or above is dropped (R140), and
the length counts exactly. -/
def TableRow.append (bit : Bool) (r : TableRow) : TableRow :=
  { r with code := r.code ||| ((BitVec.ofBool bit).setWidth 32 <<< r.length), length := r.length + 1 }

end Sys2Proof.Machine
end

