-- ==== Sys2Proof/Machine/Flags.lean ====
section
/-!
DEFINITION. The engine has no arithmetic flags (spec/10_state.md R35). Its only status is the `STATUS` code of a
response (spec/30_encoding.md R95) and which check of a build fails first (spec/40_build_table.md R114).
-/

namespace Sys2Proof.Machine

/-- The number of an error (R95, R171 to R176). -/
def EngineError.code : EngineError → BitVec 3
  | .emptyAlphabet => 1#3
  | .lengthOverflow => 2#3
  | .zeroLength => 3#3
  | .invalidCode => 4#3
  | .noBook => 5#3
  | .illegalCommand => 6#3

/-- `STATUS` (R95). -/
def Response.status : Response → BitVec 3
  | .ok => 0#3
  | .okSymbol _ => 0#3
  | .error e => e.code

/-- `SYMBOL`, where it is meaningful (R95). -/
def Response.symbol : Response → Option Symbol
  | .okSymbol sym => some sym
  | .ok => none
  | .error _ => none

/-- An error of a build, which loses the book (R178). -/
def EngineError.isBuildError : EngineError → Bool
  | .emptyAlphabet => true
  | .lengthOverflow => true
  | .zeroLength => true
  | .invalidCode => false
  | .noBook => false
  | .illegalCommand => false

/-- The checks of R114 in their order; `none` when all pass. -/
def tableError (maxLength : Nat) (rows : List TableRow) : Option EngineError :=
  if rows = [] then some .emptyAlphabet
  else if lmax < effectiveMax maxLength rows then some .lengthOverflow
  else if rows.any (fun r => decide (effectiveMax maxLength rows < r.length)) then some .lengthOverflow
  else if rows.any (fun r => decide (r.length = 0)) then some .zeroLength
  else none

end Sys2Proof.Machine
end

