-- ==== Sys2Proof/Machine/Ops.lean ====
section
/-!
DEFINITION. The shared operations: the cursors (spec/20_memory.md R50 to R52), the population of the book
(spec/40_build_table.md R115 to R119), responding, and raising an error (spec/60_exceptions.md R178), which is all
this hardware has of taking an exception; there is no return from one (R181).
-/

namespace Sys2Proof.Machine

/-! ## The cursors -/

/-- The canonical form of `Memory`: handles strictly rising, no entry equal to what an unlisted handle reads as. -/
abbrev Memory.wf (m : Memory) : Prop :=
  (m.map Prod.fst).Pairwise (· < ·) ∧ ∀ e ∈ m, e.2 ≠ Cursor.fresh e.1

/-- The cursor under a handle. -/
def Memory.cursor : Memory → CursorId → Cursor
  | [], h => Cursor.fresh h
  | (k, c) :: m, h => if k = h then c else Memory.cursor m h

/-- An entry, unless it equals what an unlisted handle reads as. -/
def Memory.entry (h : CursorId) (c : Cursor) : Memory := if c = Cursor.fresh h then [] else [(h, c)]

/-- Put a cursor under a handle, keeping the canonical form. -/
def Memory.setCursor (h : CursorId) (c : Cursor) : Memory → Memory
  | [] => Memory.entry h c
  | (k, d) :: m =>
    if h < k then Memory.entry h c ++ (k, d) :: m
    else if h = k then Memory.entry h c ++ m
    else (k, d) :: Memory.setCursor h c m

/-- `stream(c)` at a position: payload, then pad bits (R34, R58). -/
def Cursor.bit (c : Cursor) (k : Nat) : Bool := (c.payload[k]?).getD (Config.padBit c.padId k)

/-- `n` stream bits from position `k` on. -/
def Cursor.bitsFrom (c : Cursor) (k : Nat) : Nat → List Bool
  | 0 => []
  | n + 1 => c.bit k :: c.bitsFrom (k + 1) n

/-- `PeekBits(c, n)` (R50). -/
def Cursor.peek (c : Cursor) (n : Nat) : Nat :=
  if c.msb then val (c.bitsFrom c.pos n) else lsbVal (c.bitsFrom c.pos n)

/-- The cursor after `Skip(c, n)` (R51). -/
def Cursor.advance (c : Cursor) (n : Nat) : Cursor := { c with pos := c.pos + n }

/-- The cursor under a handle. -/
def State.cursor (s : State) (c : CursorId) : Cursor := Memory.cursor s.mem c

/-- Put a cursor under a handle. -/
def State.setCursor (s : State) (c : CursorId) (cur : Cursor) : State :=
  { s with mem := Memory.setCursor c cur s.mem }

/-- Record a request and its reply. -/
def State.record (s : State) (e : Exchange) : State := { s with requests := s.requests ++ [e] }

/-- Issue `IS_MSB_FIRST` (R52); the reply is `reportsMsb`. -/
def State.askMsbFirst (s : State) (c : CursorId) : State :=
  s.record (.isMsbFirst c (s.cursor c).reportsMsb)

/-- Issue `PEEK_BITS n` (R50, R100); the reply is the value as a 32-bit word. -/
def State.peek (s : State) (c : CursorId) (n : Nat) : State :=
  s.record (.peekBits c n (BitVec.ofNat 32 ((s.cursor c).peek n)))

/-- Issue `SKIP n` (R51). -/
def State.skip (s : State) (c : CursorId) (n : Nat) : State :=
  (s.setCursor c ((s.cursor c).advance n)).record (.skip c n)

/-- Issue a request again, on the state at hand. -/
def State.reissue (s : State) : Exchange → State
  | .isMsbFirst c _ => s.askMsbFirst c
  | .peekBits c n _ => s.peek c n
  | .skip c n => s.skip c n

/-! ## The book -/

/-- `PT[j]` (R153). In states with a shorter table, which no run reaches, an absent entry reads `Invalid`
(log 18). -/
def CodeBook.entry (b : CodeBook) (j : Nat) : PrefixEntry := b.pt.getD j .invalid

/-- `BK[i]` (R156). In states with fewer buckets, which no run reaches, an absent bucket reads empty (log 18). -/
def CodeBook.bucket (b : CodeBook) (i : Nat) : List BucketPair := b.bk.getD i []

/-- Write `e` into every index of `lo .. lo + n - 1` of a table whose first entry has index `j` (R116). -/
def fillRange (lo n : Nat) (e : PrefixEntry) : Nat → List PrefixEntry → List PrefixEntry
  | _, [] => []
  | j, x :: xs => (if lo ≤ j ∧ j < lo + n then e else x) :: fillRange lo n e (j + 1) xs

/-- The start of population (R115). -/
def CodeBook.empty (P ml : Nat) : CodeBook :=
  { maxLen := ml, pt := List.replicate (2 ^ P) .invalid, bk := List.replicate (ml - P) [] }

/-- Record one entry: a short code in `PT` (R116), a long code at the end of its bucket (R117). -/
def CodeBook.addRow (P : Nat) (b : CodeBook) (r : TableRow) : CodeBook :=
  if r.length ≤ P then
    { b with pt := fillRange (fillStart P r) (fillCount P r) (.hit r.symbol r.length) 0 b.pt }
  else
    { b with bk := b.bk.modify (bucketNumber P r.length) (· ++ [{ code := r.code, symbol := r.symbol }]) }

/-- The whole population, in ascending entry index (R118). -/
def populate (P ml : Nat) (rows : List TableRow) : CodeBook :=
  rows.foldl (CodeBook.addRow P) (CodeBook.empty P ml)

/-- The first pair of a bucket, in list order, whose code is `w` (R156). -/
def findSymbol (w : Nat) : List BucketPair → Option Symbol
  | [] => none
  | p :: ps => if p.code.toNat = w then some p.symbol else findSymbol w ps

/-- Unspecified contents of the book (R36, R119): a free value (log 5). The table keeps its `2^P` entries (R22). -/
def CodeBook.stale (P draw : Nat) : CodeBook :=
  { maxLen := Config.staleMaxLen draw
    pt := (List.range (2 ^ P)).map (Config.staleEntry draw)
    bk := (List.range (Config.staleMaxLen draw - P)).map (Config.staleBucket draw) }

/-! ## Responses, errors, reset -/

/-- Give the response of a command (R95). -/
def State.respond (s : State) (r : Response) : State := { s with response := some r }

/-- `BOOK_VALID <- 0` and the contents of the book become unspecified (R119, R200). -/
def State.loseBook (s : State) : State :=
  { s with bookValid := false, slot := CodeBook.stale s.params.P s.draws, draws := s.draws + 1 }

/-- TAKING AN ERROR (R178): a build error loses the book, another error changes nothing; the response is the error
alone, and control goes nowhere. -/
def State.raise (s : State) (e : EngineError) : State :=
  (if e.isBuildError then s.loseBook else s).respond (.error e)

/-- Make the slot a new, complete book and answer `OK` (R118, R119). -/
def State.install (s : State) (b : CodeBook) : State :=
  { s with bookValid := true, slot := b }.respond .ok

/-- The checks of R114, then the population step (R118). -/
def State.build (s : State) (maxLength : Nat) (rows : List TableRow) : State :=
  match tableError maxLength rows with
  | some e => s.raise e
  | none => s.install (populate s.params.P (effectiveMax maxLength rows) rows)

/-- `BUILD_TABLE` on its entries, in full: shared by the stand-alone command and the hand-over of `BUILD_FREQ` (R99,
R141). Entries that pass the checks and break W1 or W2 have no meaning (R112). -/
def State.buildEntries (s : State) (maxLength : Nat) (rows : List TableRow) : Host.Outcome State Fault Refusal :=
  if tableError maxLength (enteredRows s.params rows) = none ∧ wellFormedRows s.params rows = false then
    .refused .illFormedTable
  else .next (s.build maxLength (enteredRows s.params rows))

/-- Accept the next input: the requests and the response of the one before are over (R20). -/
def State.accept (s : State) : State := { s with inbox := s.inbox.tail, response := none, requests := [] }

/-- The reset event (R36, R200, R202): no book, contents unspecified, no response; `P` and the cursors are
untouched. -/
def State.resetEvent (s : State) : State := { s.loseBook with response := none }

/-- A transaction that is no instruction: an illegal `CMD` byte is answered (R96), the others have no meaning. -/
def State.reject (s : State) : DecodeError → Host.Outcome State Fault Refusal
  | .illegalCommand => .next (s.raise .illegalCommand)
  | .malformedOperands => .refused .malformedOperands
  | .reservedRequest => .refused .reservedRequest

end Sys2Proof.Machine
end

