-- ==== Sys2Proof/Machine/BuildFreq.lean ====
section
/-!
DEFINITION. The meaning of `BUILD_FREQ`: the frequency merge with its tie-break (spec/41_build_freq.md R130 to R146).
The working storage of spec/10_state.md R29 is local to the command (R30).
-/

namespace Sys2Proof.Machine

/-- The tree under a node, by the tagged variant R29 recommends; a leaf is named by its position. -/
inductive Tree where
  | leaf (position : Nat)
  | node (zero one : Tree)
deriving DecidableEq, Repr

/-- `Leaves(k)` (R142). -/
def Tree.leaves : Tree → List Nat
  | .leaf l => [l]
  | .node zero one => zero.leaves ++ one.leaves

/-- A record of the node array (R29). Frequencies are exact naturals, which R139 allows. -/
structure Node where
  freq : Nat
  tree : Tree
deriving DecidableEq, Repr

/-- The working storage of one `BUILD_FREQ` (R29): `NODE`, and `CODE`, `LEN`, `SYM` of every leaf. -/
structure Work where
  nodes  : List Node
  leaves : List TableRow
deriving DecidableEq, Repr

/-- The leaf nodes at positions `i, i+1, …` (R132). -/
def seedNodes : Nat → List FreqPair → List Node
  | _, [] => []
  | i, p :: ps => { freq := p.freq.toNat, tree := .leaf i } :: seedNodes (i + 1) ps

/-- Seeding (R132). -/
def Work.seed (ps : List FreqPair) : Work :=
  { nodes := seedNodes 0 ps, leaves := ps.map fun p => { code := 0#32, length := 0, symbol := p.symbol } }

/-- A node selected by the scan, with its position. -/
structure Pick where
  position : Nat
  node     : Node
deriving DecidableEq, Repr

/-- `first` and `second` (R134). -/
structure Picks where
  first  : Option Pick
  second : Option Pick
deriving DecidableEq, Repr

/-- `f < NODE[p].freq`, an absent node counting as larger than every frequency (R134). -/
def beats (f : Nat) : Option Pick → Bool
  | none => true
  | some p => decide (f < p.node.freq)

/-- The scan at one node (R134): strict comparisons, and the old `first` is handed down. -/
def Picks.consider (w : Picks) (k : Nat) (n : Node) : Picks :=
  if n.freq = 0 then w
  else if beats n.freq w.first then { first := some ⟨k, n⟩, second := w.first }
  else if beats n.freq w.second then { w with second := some ⟨k, n⟩ }
  else w

/-- The scan over the nodes at positions `k, k+1, …` (R134). -/
def scanFrom (w : Picks) : Nat → List Node → Picks
  | _, [] => w
  | k, n :: ns => scanFrom (w.consider k n) (k + 1) ns

/-- The selection scan (R134). -/
def scan (ns : List Node) : Picks := scanFrom { first := none, second := none } 0 ns

/-- Append a bit to every leaf named in `ls`, for the leaves at positions `i, i+1, …` (R138). Each named leaf is
visited once; the order of the walk cannot be seen (D30). -/
def pushBit (bit : Bool) (ls : List Nat) : Nat → List TableRow → List TableRow
  | _, [] => []
  | i, r :: rs => (if i ∈ ls then r.append bit else r) :: pushBit bit ls (i + 1) rs

/-- Retire a node (R137): its frequency becomes 0. -/
def Node.retire (n : Node) : Node := { n with freq := 0 }

/-- Merge (R137) and propagate the two bits (R138). -/
def Work.merge (w : Work) (first second : Pick) : Work :=
  { nodes := ((w.nodes.modify first.position Node.retire).modify second.position Node.retire) ++
      [{ freq := first.node.freq + second.node.freq, tree := .node first.node.tree second.node.tree }]
    leaves := pushBit true second.node.tree.leaves 0 (pushBit false first.node.tree.leaves 0 w.leaves) }

/-- The loop (R133): at most `k` rounds, stopping when the scan finds no `second` (R136). With `n` leaves, `n`
rounds are more than the loop ever takes. -/
def Work.rounds : Nat → Work → Work
  | 0, w => w
  | k + 1, w =>
    match (scan w.nodes).first, (scan w.nodes).second with
    | some first, some second => (w.merge first second).rounds k
    | _, _ => w

/-- The `(code, length, symbol)` of every input pair when the loop stops (R141). -/
def mergeRows (ps : List FreqPair) : List TableRow := ((Work.seed ps).rounds ps.length).leaves

/-- `BUILD_FREQ` (R142): the merge, then `BUILD_TABLE` in full with `maxLength = 0` on its codes (R99, R141). More than
`NMAX` pairs have no meaning (R8). Where `LSB_CODES_REVERSED` is set the codes are reversed on entry as any others are
(D9), and entries that then break W2 have no meaning (log 14). -/
def execBuildFreq (ps : List FreqPair) (s : State) : Host.Outcome State Fault Refusal :=
  if s.params.nmax.toNat < ps.length then .refused .overCapacity
  else s.buildEntries 0 (mergeRows ps)

end Sys2Proof.Machine
end

