-- ==== Sys2Proof/Machine/BuildTable.lean ====
section
/-!
DEFINITION. The meaning of `BUILD_TABLE` (spec/40_build_table.md R110 to R121).
-/

namespace Sys2Proof.Machine

/-- `BUILD_TABLE` (R118). More than `NMAX` entries have no meaning (R8). -/
def execBuildTable (maxLength : Byte) (t : TableOperand) (s : State) : Host.Outcome State Fault Refusal :=
  if s.params.nmax.toNat < t.count then .refused .overCapacity
  else s.buildEntries maxLength.toNat (tableRows t)

end Sys2Proof.Machine
end

