-- ==== Sys2Proof/Machine/CursorRequests.lean ====
section
/-!
DEFINITION. The meanings of the three requests, issued to a cursor between commands (spec/20_memory.md R50 to R52).
-/

namespace Sys2Proof.Machine

/-- `IS_MSB_FIRST` (R52). -/
def execIsMsbFirst (c : CursorId) (s : State) : Host.Outcome State Fault Refusal :=
  .next (s.askMsbFirst c)

/-- `PEEK_BITS n` (R50). With `CURSOR_CAN_FAIL` the spec defines nothing (D15, U7). -/
def execPeekBits (c : CursorId) (n : Fin 33) (s : State) : Host.Outcome State Fault Refusal :=
  if s.params.cursorCanFail then .refused .cursorMayFail else .next (s.peek c n.val)

/-- `SKIP n` (R51). -/
def execSkip (c : CursorId) (n : Fin 33) (s : State) : Host.Outcome State Fault Refusal :=
  .next (s.skip c n.val)

end Sys2Proof.Machine
end

