-- ==== Sys2Proof/Machine/DecodeSymbol.lean ====
section
/-!
DEFINITION. The meaning of `DECODE` (spec/42_decode.md R150 to R163).
-/

namespace Sys2Proof.Machine

/-- The index of step 1 (R152, R89): from the reported order and the peeked value. -/
def State.decodeIndex (s : State) (c : CursorId) : Nat :=
  tableIndex s.params.P (s.cursor c).reportsMsb ((s.cursor c).peek s.params.P)

/-- The bucket scan (R156) over `k` buckets from bucket `i` on, with working code `w`; exhaustion raises
`InvalidCode` (R157). -/
def scanBuckets (c : CursorId) : Nat → Nat → Nat → State → State
  | 0, _, _, s => s.raise .invalidCode
  | k + 1, i, w, s =>
    match findSymbol (extendCode w ((s.cursor c).peek 1)) (s.slot.bucket i) with
    | some sym => ((s.peek c 1).skip c 1).respond (.okSymbol sym)
    | none => scanBuckets c k (i + 1) (extendCode w ((s.cursor c).peek 1)) ((s.peek c 1).skip c 1)

/-- `DECODE` against a valid book (R152 to R157). -/
def State.decodeSymbol (s : State) (c : CursorId) : State :=
  match s.slot.entry (s.decodeIndex c) with
  | .hit sym len => (((s.askMsbFirst c).peek c s.params.P).skip c len).respond (.okSymbol sym)
  | .invalid =>
    scanBuckets c s.nbuckets 0 (s.decodeIndex c) (((s.askMsbFirst c).peek c s.params.P).skip c s.params.P)

/-- `DECODE` (R158). Without a book it answers `NoBook` and issues no request (R151). On an instance whose cursor
can fail a peek the spec defines nothing beyond that (D15, U7). -/
def execDecode (c : CursorId) (s : State) : Host.Outcome State Fault Refusal :=
  if s.bookValid = false then .next (s.raise .noBook)
  else if s.params.cursorCanFail then .refused .cursorMayFail
  else .next (s.decodeSymbol c)

end Sys2Proof.Machine
end

