-- ==== Sys2Proof/Machine/Dispatch.lean ====
section
/-! DEFINITION. One arm for each instruction. -/

namespace Sys2Proof.Machine

def exec (i : Instr) (s : State) : Host.Outcome State Fault Refusal :=
  match i with
  | .buildTable maxLength t => Sys2Proof.Machine.execBuildTable maxLength t s
  | .buildFreq ps => Sys2Proof.Machine.execBuildFreq ps s
  | .decode c => Sys2Proof.Machine.execDecode c s
  | .isMsbFirst c => Sys2Proof.Machine.execIsMsbFirst c s
  | .peekBits c n => Sys2Proof.Machine.execPeekBits c n s
  | .skip c n => Sys2Proof.Machine.execSkip c n s

end Sys2Proof.Machine
end

