-- ==== Sys2Proof/Machine/Inputs.lean ====
section
/-!
DEFINITION. What each input of the inbox does (spec/00_scope.md R10, spec/70_reset_and_hazards.md R200 to R204, R210,
R211). Each function takes the state after acceptance.
-/

namespace Sys2Proof.Machine

/-- A transaction: the decoded instruction runs; what is no instruction is answered or refused (R94, R96, R100). -/
def runLaunch (t : Transaction) (s : State) : Host.Outcome State Fault Refusal :=
  match decode t with
  | .ok i => exec i s
  | .error e => s.reject e

/-- Reset inside a command (R201): the requests already issued have moved the cursors, nothing else of the command
remains, there is no response, and the state is that after reset. -/
def State.abandon (s : State) (issued : List Exchange) : State :=
  (issued.foldl State.reissue s).resetEvent

/-- The command is abandoned after its first `k` requests (R201; log 9). A command without meaning stays
without meaning. -/
def runResetDuring (cmd : Byte) (ops : List Operand) (k : Nat) (s : State) : Host.Outcome State Fault Refusal :=
  match runLaunch (.command cmd ops) s with
  | .next t => .next (s.abandon (t.requests.take k))
  | .fault f => .fault f
  | .refused r => .refused r

/-- One input. -/
def runInput (s : State) : Input → Host.Outcome State Fault Refusal
  | .launch t => runLaunch t s
  | .reset => .next s.resetEvent
  | .resetDuring cmd ops k => runResetDuring cmd ops k s
  | .place c cur => .next (s.setCursor c cur)
  | .seek c pos => .next (s.setCursor c { s.cursor c with pos := pos })
  | .brokenLaunch h _ => .refused (.brokenHazard h)

end Sys2Proof.Machine
end

