-- ==== Sys2Proof/Machine/Step.lean ====
section
/-!
DEFINITION. One step: the next input of the inbox, or nothing while the engine is idle (spec/20_memory.md R60,
spec/60_exceptions.md R180).
-/

namespace Sys2Proof.Machine

/-- One step. Each command is one atomic step (R60). With nothing to do the engine stays as it is: it has no
background work (R180). -/
def step (s : State) : Host.Outcome State Fault Refusal :=
  match s.inbox with
  | [] => .next s
  | input :: _ => runInput s.accept input

/-- The state with a word of the opcode table as its next launch (log 1, log 23). -/
def State.withFetchWord (s : State) (nbits w : Nat) : State :=
  if nbits = 8 ∧ w < 2 ^ 8 then
    { s with inbox := .launch (tableTransaction (BitVec.ofNat 8 w)) :: s.inbox }
  else s

end Sys2Proof.Machine
end

