-- ==== Sys2Proof/Safety.lean ====
section
/-!
DEFINITION. The terms claims are made in: the invariant of the machine, what an instruction leaves alone, when an
explicit table is legal (spec/40_build_table.md R112 to R114) and what book its rows make (R115 to R117).
-/

namespace Sys2Proof.Machine

/-! ## The invariant -/

/-- What every complete book satisfies: `MAXLEN` in `1..32` (R25), NBUCKETS buckets (R23, R26), entry lengths
(R22), and patterns within the length of their bucket (R23, R80). -/
structure CodeBook.Sound (P : Nat) (b : CodeBook) : Prop where
  maxLen_pos : 1 ≤ b.maxLen
  maxLen_le : b.maxLen ≤ lmax
  bk_length : b.bk.length = b.maxLen - P
  entry_length : ∀ j sym len, b.entry j = .hit sym len → 1 ≤ len ∧ len ≤ P ∧ len ≤ b.maxLen
  pair_code : ∀ i, ∀ p ∈ b.bucket i, p.code.toNat < 2 ^ (P + 1 + i)

/-- The invariant of the machine: the cursors are in canonical form, the table has exactly `2^P` entries (R22), and
a book said to be valid is a sound one (R24). -/
structure State.Inv (s : State) : Prop where
  mem_wf : Memory.wf s.mem
  pt_length : s.slot.pt.length = 2 ^ s.params.P
  book : s.bookValid = true → s.slot.Sound s.params.P

/-- A safe step: it goes on. -/
def State.StepsOn (s : State) : Prop := ∃ t, step s = .next t

/-! ## What is left alone -/

/-- The engine's own state is unchanged: the book, its valid bit and the constants (R27). -/
def SameEngine (s t : State) : Prop :=
  t.params = s.params ∧ t.bookValid = s.bookValid ∧ t.slot = s.slot ∧ t.draws = s.draws

/-- Cursor `c` has moved by `n` and nothing else of it has changed; every other cursor is as it was. -/
def OnlyMoves (c : CursorId) (n : Nat) (s t : State) : Prop :=
  t.cursor c = (s.cursor c).advance n ∧ ∀ h, h ≠ c → t.cursor h = s.cursor h

/-- What a build never touches: the constants, every cursor, the inbox and the requests (R110, R119, R130). -/
def BuildFrame (s t : State) : Prop :=
  t.params = s.params ∧ t.mem = s.mem ∧ t.inbox = s.inbox ∧ t.requests = s.requests

/-- The inputs after which the book may be another one: the two builds, and a reset (R27). -/
def Input.rewritesBook : Input → Bool
  | .launch t =>
    match decode t with
    | .ok (.buildTable _ _) => true
    | .ok (.buildFreq _) => true
    | .ok (.decode _) => false
    | .ok (.isMsbFirst _) => false
    | .ok (.peekBits _ _) => false
    | .ok (.skip _ _) => false
    | .error _ => false
  | .reset => true
  | .resetDuring _ _ _ => true
  | .place _ _ => false
  | .seek _ _ => false
  | .brokenLaunch _ _ => false

/-! ## Cursors and strings -/

/-- The cursor answers `IsMsbFirst` truthfully (R52; R214 speaks of one that does not). -/
def Cursor.Truthful (c : Cursor) : Prop := c.reportsMsb = c.msb

/-- The next `n` stream bits, in stream order. -/
def Cursor.next (c : Cursor) (n : Nat) : List Bool := c.bitsFrom c.pos n

/-- The bit string of a row's code (R80). -/
def TableRow.string (r : TableRow) : List Bool := str r.length r.code.toNat

/-- No code of the rows is a prefix of another's (R12, R28), entry by entry (D31). -/
def PrefixFree (rows : List TableRow) : Prop :=
  rows.Pairwise fun r q => ¬ r.string <+: q.string ∧ ¬ q.string <+: r.string

/-! ## Legal tables and their books, in the words of R112 to R117 -/

/-- `ml` is the effective maximum length (R113). -/
structure IsEffectiveMax (maxLength : Nat) (rows : List TableRow) (ml : Nat) : Prop where
  given : maxLength ≠ 0 → ml = maxLength
  derived : maxLength = 0 → (∃ r ∈ rows, r.length = ml) ∧ ∀ r ∈ rows, r.length ≤ ml

/-- No check of R114 fails. -/
structure PassesChecks (maxLength : Nat) (rows : List TableRow) (ml : Nat) : Prop where
  nonempty : rows ≠ []
  isMax : IsEffectiveMax maxLength rows ml
  bound : ml ≤ 32
  within : ∀ r ∈ rows, r.length ≤ ml
  positive : ∀ r ∈ rows, r.length ≠ 0

/-- Index `j` lies in the fill range of `r`: its top `length` bits equal the code (R88). -/
def Covers (P : Nat) (r : TableRow) (j : Nat) : Prop :=
  r.length ≤ P ∧ j < 2 ^ P ∧ j / 2 ^ (P - r.length) = r.code.toNat

/-- (W1) of R112. -/
def W1 (rows : List TableRow) : Prop := ∀ r ∈ rows, r.code.toNat < 2 ^ r.length

/-- (W2) of R112. -/
def W2 (P : Nat) (rows : List TableRow) : Prop :=
  ∀ r ∈ rows, ∀ q ∈ rows, ∀ j, Covers P r j → Covers P q j → r.symbol = q.symbol ∧ r.length = q.length

/-- The book that the rows make (R115 to R117). -/
structure BookOf (P ml : Nat) (rows : List TableRow) (b : CodeBook) : Prop where
  maxLen : b.maxLen = ml
  pt_length : b.pt.length = 2 ^ P
  covered : ∀ r ∈ rows, ∀ j, Covers P r j → b.entry j = .hit r.symbol r.length
  uncovered : ∀ j, (∀ r ∈ rows, ¬ Covers P r j) → b.entry j = .invalid
  bk_length : b.bk.length = ml - P
  buckets : ∀ i, b.bucket i =
    (rows.filter fun r => decide (r.length = P + 1 + i)).map fun r => { code := r.code, symbol := r.symbol }

/-- The build fails with this error: the response is the error, there is no book, and the frame of a build holds
(R119, R178). -/
def BuildFails (i : Instr) (s : State) (e : EngineError) : Prop :=
  ∃ u, exec i s = .next u ∧ u.response = some (.error e) ∧ u.bookValid = false ∧ BuildFrame s u

/-- The operand of the hand-over (R141): the codes of the merge as an explicit table with symbols. -/
def handOver (ps : List FreqPair) : TableOperand :=
  .named ((mergeRows ps).map fun r => ({ code := r.code, length := BitVec.ofNat 8 r.length }, r.symbol))

/-- The requests of `n` one-bit pulls from stream position `k` on, with their replies (R55, R161). -/
def pulls (c : CursorId) (cur : Cursor) (k n : Nat) : List Exchange :=
  (List.range n).flatMap fun j => [.peekBits c 1 (BitVec.ofNat 32 (cur.bit (k + j)).toNat), .skip c 1]

/-- The first three requests of a decode that skips `n` bits, with their replies (R161). -/
def opening (s : State) (c : CursorId) (n : Nat) : List Exchange :=
  [.isMsbFirst c (s.cursor c).reportsMsb,
   .peekBits c s.params.P (BitVec.ofNat 32 ((s.cursor c).peek s.params.P)), .skip c n]

/-- How far a request moves its cursor (R50 to R52). -/
def Exchange.bits : Exchange → Nat
  | .isMsbFirst _ _ => 0
  | .peekBits _ _ _ => 0
  | .skip _ n => n

/-- How far a list of requests moves the cursor they are issued to. -/
def skipped (issued : List Exchange) : Nat := (issued.map Exchange.bits).sum

/-- The working code compared in bucket `i` (R90, R156): the index, then the `i + 1` bits after the first `P`. -/
def workingCode (s : State) (c : CursorId) (i : Nat) : Nat :=
  s.decodeIndex c * 2 ^ (i + 1) + val ((s.cursor c).bitsFrom ((s.cursor c).pos + s.params.P) (i + 1))

/-- The frequencies a host is to present (R131): every one positive. -/
def AllPositive (ps : List FreqPair) : Prop := ∀ p ∈ ps, p.freq ≠ 0#32

end Sys2Proof.Machine
end

