-- ==== Sys2Proof/Certificates/Slice0/Obligations.lean ====
section
/-!
DEFINITION. The statements for the provers. Rule numbers are those of spec/. `Memory.wf` stands as a premise where a
statement reads a cursor after a write to it: it is part of the invariant `State.Inv`, which has statements of its own.
-/

open Sys2Proof Sys2Proof.Machine

/-! ## Reset, the step, the invariant -/

/-- R36: after a reset event there is no book, `P` and the other constants are unchanged, no cursor is touched and
no response is given. What R36 leaves unspecified (MAXLEN, PT, BK) is left so. The clause on the inbox is the model's:
the inbox is log 1 (DESIGN CHOICE), that a reset leaves its later entries is log 10 (DEDUCED). -/
def Obligations.ResetEventLeavesNoBookAndKeepsCursors : Prop :=
  ∀ (s : State) (rest : List Input), s.inbox = .reset :: rest →
    ∃ t, step s = .next t ∧ t.bookValid = false ∧ t.params = s.params ∧ t.mem = s.mem ∧ t.inbox = rest ∧
      t.response = none

/-- The state after reset meets the invariant. It rests on the named reset values (log 4, log 7). -/
def Obligations.ResetStateMeetsInvariant : Prop := State.reset.Inv

/-- Every step keeps the invariant, from every state that meets it. -/
def Obligations.StepKeepsInvariant : Prop :=
  ∀ s t : State, s.Inv → step s = .next t → t.Inv

/-- R5, R8, R21: `P` is 8 by default and lies in `1..32`, and no step writes it or another parameter of the instance
(`NMAX`, `CURSOR_CAN_FAIL`, `LSB_CODES_REVERSED`). That the parameters are held in `State` is the model's choice
(log 3, DESIGN CHOICE). -/
def Obligations.StepKeepsInstanceConstants : Prop :=
  State.reset.params.P = 8 ∧
  ∀ s t : State, step s = .next t → t.params = s.params ∧ 1 ≤ t.params.P ∧ t.params.P ≤ 32

/-- A step runs the decoded instruction: what the step adds around `exec` is the acceptance of the input (it leaves
the inbox; the response and the requests of the one before are cleared). With an empty inbox nothing changes.
The inbox is the model's own (log 1). -/
def Obligations.StepRunsTheDecodedInstruction : Prop :=
  (∀ (s : State) (tr : Transaction) (rest : List Input) (i : Instr),
    s.inbox = .launch tr :: rest → decode tr = .ok i →
      step s = exec i { s with inbox := rest, response := none, requests := [] }) ∧
  (∀ s : State, s.inbox = [] → step s = .next s)

/-- A step that goes on leaves exactly the rest of the inbox: inputs are taken one at a time, in order. The inbox is the
model's own (log 1, DESIGN CHOICE; the spec gives no queue, only the total order of commands, R60), and that the
later inputs survive a reset is log 10 (DEDUCED). -/
def Obligations.StepTakesInputsInOrder : Prop :=
  ∀ (s t : State) (input : Input) (rest : List Input),
    s.inbox = input :: rest → step s = .next t → t.inbox = rest

/-- R95: every command that goes on ends with a response, a request never does, and a symbol is carried only by a
`DECODE`. -/
def Obligations.OnlyCommandsRespondAndOnlyDecodeCarriesASymbol : Prop :=
  ∀ (s t : State) (tr : Transaction) (rest : List Input),
    s.inbox = .launch tr :: rest → step s = .next t →
      (∀ cmd ops, tr = .command cmd ops → ∃ r, t.response = some r ∧
        ∀ sym, r = .okSymbol sym → ∃ c, decode tr = .ok (.decode c)) ∧
      (∀ c req, tr = .request c req → t.response = none)

/-- R27: only a build or a reset can change the book, its valid bit or the constants. -/
def Obligations.OnlyBuildsAndResetsChangeTheBook : Prop :=
  ∀ (s t : State) (input : Input) (rest : List Input),
    s.inbox = input :: rest → input.rewritesBook = false → step s = .next t → SameEngine s t

/-- R179, R222: at the default `NMAX` and with cursors that cannot fail, every decoded instruction is answered; the
one exception are entries that break W1 or W2, which R112 leaves without meaning: those of an explicit table, and, with
`LSB_CODES_REVERSED` on only, those that `BUILD_FREQ` hands over (log 14, log 16). -/
def Obligations.EveryDecodedLaunchIsAnswered : Prop :=
  ∀ (s : State) (tr : Transaction) (rest : List Input) (i : Instr),
    s.params.nmax = 0xFFFFFFFF#32 → s.params.cursorCanFail = false →
    s.inbox = .launch tr :: rest → decode tr = .ok i →
      s.StepsOn ∨
      (step s = .refused .illFormedTable ∧
        ((∃ maxLength t, i = .buildTable maxLength t ∧ wellFormedRows s.params (tableRows t) = false) ∨
          (s.params.lsbCodesReversed = true ∧
            ∃ ps, i = .buildFreq ps ∧ wellFormedRows s.params (mergeRows ps) = false)))

/-! ## Encodings -/

/-- R96: an illegal `CMD` byte, whatever operands come with it, is answered with `IllegalCommand`; nothing else
changes (but for the acceptance itself). -/
def Obligations.IllegalCommandByteChangesNothing : Prop :=
  ∀ (s : State) (cmd : Byte) (ops : List Operand) (rest : List Input),
    s.inbox = .launch (.command cmd ops) :: rest →
    (cmd.extractLsb' 0 2 = 0#2 ∨ cmd.extractLsb' 3 5 ≠ 0#5 ∨
      (cmd.getLsbD 2 = true ∧ cmd.extractLsb' 0 2 ≠ 1#2)) →
    step s = .next { s with inbox := rest, response := some (.error .illegalCommand), requests := [] }

/-- V-X: exactly four command bytes are legal. -/
def Obligations.ExactlyFourCommandBytesAreLegal : Prop :=
  ∀ (cmd : Byte) (ops : List Operand),
    decode (.command cmd ops) ≠ .error .illegalCommand ↔
      cmd = 0x01#8 ∨ cmd = 0x02#8 ∨ cmd = 0x03#8 ∨ cmd = 0x05#8

/-- Decoding the encoding of a well-formed instruction gives it back, with every operand. -/
def Obligations.DecodeOfEncodeIsIdentity : Prop :=
  ∀ i : Instr, i.wellFormed = true → decode (encode i) = .ok i

/-- A transaction that decodes is the encoding of what it decodes to: no bit and no operand is ignored. -/
def Obligations.EncodeOfDecodeIsIdentity : Prop :=
  ∀ (tr : Transaction) (i : Instr), decode tr = .ok i → i.wellFormed = true ∧ encode i = tr

/-- Words written out from R94 and R100 decode to the instructions they stand for. -/
def Obligations.WordsOfTheSpecDecode : Prop :=
  decode (.command 0b00000101#8 [.byte 0#8, .word 2#32, .word 0#32, .word 2#32, .byte 1#8, .byte 2#8,
      .word 65#32, .word 66#32]) =
    .ok (.buildTable 0#8 (.named [(⟨0#32, 1#8⟩, 65#32), (⟨2#32, 2#8⟩, 66#32)])) ∧
  decode (.command 0b00000001#8 [.byte 12#8, .word 1#32, .word 6#32, .byte 3#8]) =
    .ok (.buildTable 12#8 (.indexed [⟨6#32, 3#8⟩])) ∧
  decode (.command 0b00000010#8 [.word 2#32, .word 9#32, .word 8#32, .word 10#32, .word 1#32]) =
    .ok (.buildFreq [⟨9#32, 10#32⟩, ⟨8#32, 1#32⟩]) ∧
  decode (.command 0b00000011#8 [.cursor 7]) = .ok (.decode 7) ∧
  decode (.request 7 0b00000000#8) = .ok (.isMsbFirst 7) ∧
  decode (.request 7 0b01001000#8) = .ok (.peekBits 7 8) ∧
  decode (.request 7 0b10100000#8) = .ok (.skip 7 32)

/-- R84: the optional 39-bit layout: bit 38 valid, bits 37:32 the length, bits 31:0 the symbol. -/
def Obligations.EntryLayoutHasTheBitsOfTheSpec : Prop :=
  (∀ (sym : Symbol) (len : Nat), 1 ≤ len → len ≤ 32 →
    (PrefixEntry.hit sym len).layout.getLsbD 38 = true ∧
    ((PrefixEntry.hit sym len).layout.extractLsb' 32 6).toNat = len ∧
    (PrefixEntry.hit sym len).layout.extractLsb' 0 32 = sym) ∧
  PrefixEntry.invalid.layout.getLsbD 38 = false

/-- R95: the numbers of the status codes; 7 is never given. -/
def Obligations.StatusNumbersOfResponses : Prop :=
  Response.ok.status = 0#3 ∧ (∀ sym, (Response.okSymbol sym).status = 0#3) ∧
  (Response.error .emptyAlphabet).status = 1#3 ∧ (Response.error .lengthOverflow).status = 2#3 ∧
  (Response.error .zeroLength).status = 3#3 ∧ (Response.error .invalidCode).status = 4#3 ∧
  (Response.error .noBook).status = 5#3 ∧ (Response.error .illegalCommand).status = 6#3 ∧
  ∀ r : Response, r.status ≠ 7#3

/-! ## The cursor requests -/

/-- R50: `PEEK_BITS n` answers the next `n` stream bits as a number, packed by the cursor's mode, and moves
nothing. -/
def Obligations.PeekBitsAnswersTheNextStreamBits : Prop :=
  ∀ (s : State) (c : CursorId) (n : Fin 33), s.params.cursorCanFail = false →
    ∃ t v, exec (.peekBits c n) s = .next t ∧ t.requests = s.requests ++ [.peekBits c n.val v] ∧
      v.toNat =
        (if (s.cursor c).msb then
          ∑ k ∈ Finset.range n.val, ((s.cursor c).bit ((s.cursor c).pos + k)).toNat * 2 ^ (n.val - 1 - k)
        else
          ∑ k ∈ Finset.range n.val, ((s.cursor c).bit ((s.cursor c).pos + k)).toNat * 2 ^ k) ∧
      SameEngine s t ∧ t.mem = s.mem ∧ t.inbox = s.inbox ∧ t.response = s.response

/-- An instance whose cursors can fail a peek has no meaning for `PEEK_BITS`, and none for `DECODE` once it would
peek (D15, U7; log 15). -/
def Obligations.FailingCursorsAreRefused : Prop :=
  ∀ (s : State) (c : CursorId) (n : Fin 33), s.params.cursorCanFail = true →
    exec (.peekBits c n) s = .refused .cursorMayFail ∧
    (s.bookValid = true → exec (.decode c) s = .refused .cursorMayFail)

/-- R51: `SKIP n` moves its cursor by `n` bits and changes nothing else. -/
def Obligations.SkipMovesItsCursorOnly : Prop :=
  ∀ (s : State) (c : CursorId) (n : Fin 33), Memory.wf s.mem →
    ∃ t, exec (.skip c n) s = .next t ∧ (t.cursor c).pos = (s.cursor c).pos + n.val ∧
      OnlyMoves c n.val s t ∧ t.requests = s.requests ++ [.skip c n.val] ∧
      SameEngine s t ∧ t.inbox = s.inbox ∧ t.response = s.response

/-- R52: `IS_MSB_FIRST` answers the mode the cursor reports, which is `msb(c)` for a truthful cursor, and changes
nothing. (R214: an untruthful one is what the spec calls a cursor that lies; log 13.) -/
def Obligations.IsMsbFirstAnswersTheReportedMode : Prop :=
  ∀ (s : State) (c : CursorId),
    ∃ t r, exec (.isMsbFirst c) s = .next t ∧ t.requests = s.requests ++ [.isMsbFirst c r] ∧
      r = (s.cursor c).reportsMsb ∧ ((s.cursor c).Truthful → r = (s.cursor c).msb) ∧
      SameEngine s t ∧ t.mem = s.mem ∧ t.inbox = s.inbox ∧ t.response = s.response

/-- R53: the first `n` stream bits inside a peek of `m ≥ n` bits are the peek of `n` bits: the top `n` bits for an
MSB-first cursor, the low `n` bits for an LSB-first one. -/
def Obligations.PeeksOfDifferentWidthsAgree : Prop :=
  ∀ (cur : Cursor) (n m : Nat), n ≤ m →
    (cur.msb = true → cur.peek m / 2 ^ (m - n) = cur.peek n) ∧
    (cur.msb = false → cur.peek m % 2 ^ n = cur.peek n)

/-- R56: a peek repeated with no `SKIP` between gives the same reply. -/
def Obligations.PeekIsIdempotent : Prop :=
  ∀ (s t u : State) (c : CursorId) (n : Fin 33),
    exec (.peekBits c n) s = .next t → exec (.peekBits c n) t = .next u →
      ∃ v, t.requests = s.requests ++ [.peekBits c n.val v] ∧ u.requests = t.requests ++ [.peekBits c n.val v]

/-! ## Operand assembly -/

/-- R88: for a short code that fits its length, the fill range holds exactly the indices whose top bits equal the
code. -/
def Obligations.FillRangeIsTheIndicesWithTheCodeOnTop : Prop :=
  ∀ (P : Nat) (r : TableRow), 1 ≤ r.length → r.length ≤ P → r.code.toNat < 2 ^ r.length →
    ∀ j, (fillStart P r ≤ j ∧ j < fillStart P r + fillCount P r) ↔ Covers P r j

/-- R89: the table index is the peeked value, reversed for a cursor that reports LSB-first; for a truthful cursor it
is the value of the next `P` stream bits in either mode. -/
def Obligations.TableIndexIsTheValueOfTheStreamBits : Prop :=
  ∀ (s : State) (c : CursorId),
    ((s.cursor c).reportsMsb = true → s.decodeIndex c = (s.cursor c).peek s.params.P) ∧
    ((s.cursor c).reportsMsb = false → s.decodeIndex c = rev s.params.P ((s.cursor c).peek s.params.P)) ∧
    ((s.cursor c).Truthful → s.decodeIndex c = val ((s.cursor c).next s.params.P)) ∧
    s.decodeIndex c < 2 ^ s.params.P

/-- R92, R140: appending a bit ORs it in at the current length, drops it at position 32 and above, and counts the
length exactly. -/
def Obligations.BuilderAppendDropsBitsAboveThirtyOne : Prop :=
  ∀ (bit : Bool) (r : TableRow),
    (r.append bit).length = r.length + 1 ∧ (r.append bit).symbol = r.symbol ∧
    (r.append bit).code.toNat =
      if r.length < 32 then r.code.toNat ||| (bit.toNat <<< r.length) else r.code.toNat

/-! ## BUILD_TABLE -/

/-- R115 to R117: a table that passes the checks and keeps W1 and W2 gives `OK` and the book whose table holds each
short code at every index it covers and `Invalid` elsewhere, and whose buckets list the long codes in entry order.
Nothing else changes. With `LSB_CODES_REVERSED` on, the book is made of the reversed codes (D9); that W1 is then asked of
the codes as supplied and W2 of the rows as filled in is the model's choice (log 16, DESIGN CHOICE). What the rows are
is said by `TableRowsCarryCodeLengthAndSymbol` and `EnteredRowsAreReversedExactlyUnderTheSwitch`. -/
def Obligations.BuildTableMakesTheBook : Prop :=
  ∀ (s : State) (maxLength : Byte) (t : TableOperand) (ml : Nat),
    t.count ≤ s.params.nmax.toNat →
    PassesChecks maxLength.toNat (enteredRows s.params (tableRows t)) ml →
    W1 (tableRows t) → W2 s.params.P (enteredRows s.params (tableRows t)) →
    ∃ u, exec (.buildTable maxLength t) s = .next u ∧ u.response = some .ok ∧ u.bookValid = true ∧
      BookOf s.params.P ml (enteredRows s.params (tableRows t)) u.slot ∧ u.draws = s.draws ∧ BuildFrame s u

/-- R114: the checks of `BUILD_TABLE` and their order; the first that fails is the error, and there is no book
afterwards. -/
def Obligations.BuildTableChecksInOrder : Prop :=
  ∀ (s : State) (maxLength : Byte) (t : TableOperand), t.count ≤ s.params.nmax.toNat →
    (t.count = 0 → BuildFails (.buildTable maxLength t) s .emptyAlphabet) ∧
    (∀ ml, 0 < t.count → IsEffectiveMax maxLength.toNat (tableRows t) ml →
      (32 < ml → BuildFails (.buildTable maxLength t) s .lengthOverflow) ∧
      (ml ≤ 32 → (∃ r ∈ tableRows t, ml < r.length) →
        BuildFails (.buildTable maxLength t) s .lengthOverflow) ∧
      (ml ≤ 32 → (∀ r ∈ tableRows t, r.length ≤ ml) → (∃ r ∈ tableRows t, r.length = 0) →
        BuildFails (.buildTable maxLength t) s .zeroLength))

/-- R112, R8: where `BUILD_TABLE` has no meaning: more entries than `NMAX`, or a table that passes the checks and
breaks W1 or W2. With `LSB_CODES_REVERSED` on, which tables those are (W1 of the codes as supplied, W2 of the rows as
filled in) is the model's choice (log 16, DESIGN CHOICE). -/
def Obligations.BuildTableIsRefusedWithoutMeaning : Prop :=
  ∀ (s : State) (maxLength : Byte) (t : TableOperand),
    (s.params.nmax.toNat < t.count → exec (.buildTable maxLength t) s = .refused .overCapacity) ∧
    (∀ ml, t.count ≤ s.params.nmax.toNat → PassesChecks maxLength.toNat (enteredRows s.params (tableRows t)) ml →
      ¬ (W1 (tableRows t) ∧ W2 s.params.P (enteredRows s.params (tableRows t))) →
      exec (.buildTable maxLength t) s = .refused .illFormedTable)

/-- R99, R86: without a `symbols` array the command is the one with `symbols[i] = i`. -/
def Obligations.AbsentSymbolsAreEntryIndices : Prop :=
  ∀ (s : State) (maxLength : Byte) (es : List CodeEntry),
    exec (.buildTable maxLength (.indexed es)) s =
      exec (.buildTable maxLength (.named (es.zipIdx.map fun e => (e.1, BitVec.ofNat 32 e.2)))) s

/-- R86 (with R82): row `i` of a table with a `symbols` array is `code[i]`, `length[i]`, `symbols[i]`; row `i` of one
without is `code[i]`, `length[i]`, and `i` as a 32-bit number. There are no other rows. -/
def Obligations.TableRowsCarryCodeLengthAndSymbol : Prop :=
  (∀ (es : List (CodeEntry × Symbol)) (i : Nat), (tableRows (.named es))[i]? =
    es[i]?.map fun e => { code := e.1.code, length := e.1.length.toNat, symbol := e.2 }) ∧
  (∀ (es : List CodeEntry) (i : Nat), (tableRows (.indexed es))[i]? =
    es[i]?.map fun e => { code := e.code, length := e.length.toNat, symbol := BitVec.ofNat 32 i })

/-- What the population step is given: the entries as supplied, by the host or by the merge, but for the switch of D9.
Where it is on, the code of each entry of length at most 32 is `rev_L` of the code supplied (R11: bit `k` of the one is
bit `L - 1 - k` of the other, and the bits from `L` on are 0), its length and its symbol as supplied. -/
def Obligations.EnteredRowsAreReversedExactlyUnderTheSwitch : Prop :=
  ∀ (p : Params) (rows : List TableRow),
    (p.lsbCodesReversed = false → enteredRows p rows = rows) ∧
    (p.lsbCodesReversed = true →
      (enteredRows p rows).length = rows.length ∧
      ∀ (i : Nat) (r q : TableRow), rows[i]? = some r → (enteredRows p rows)[i]? = some q →
        q.length = r.length ∧ q.symbol = r.symbol ∧
        (r.length ≤ 32 →
          ∀ k, q.code.getLsbD k = (decide (k < r.length) && r.code.getLsbD (r.length - 1 - k))))

/-- R24, R119: after either build the book is valid exactly when the response was `OK`, and a build that goes on
answers `OK` or a build error. -/
def Obligations.BookIsValidExactlyAfterSuccess : Prop :=
  ∀ (s u : State) (i : Instr),
    ((∃ maxLength t, i = .buildTable maxLength t) ∨ (∃ ps, i = .buildFreq ps)) → exec i s = .next u →
      (u.response = some .ok ∧ u.bookValid = true ∨
        (u.response = some (.error .emptyAlphabet) ∨ u.response = some (.error .lengthOverflow) ∨
          u.response = some (.error .zeroLength)) ∧ u.bookValid = false) ∧ BuildFrame s u

/-- R182: after a build error every `DECODE` answers `NoBook`, and no cursor has moved. -/
def Obligations.DecodeAfterAFailedBuildFindsNoBook : Prop :=
  ∀ (s u : State) (i : Instr) (e : EngineError) (c : CursorId),
    ((∃ maxLength t, i = .buildTable maxLength t) ∨ (∃ ps, i = .buildFreq ps)) →
    exec i s = .next u → u.response = some (.error e) →
      ∃ v, exec (.decode c) u = .next v ∧ v.response = some (.error .noBook) ∧ v.mem = s.mem

/-! ## BUILD_FREQ -/

/-- R135: what the scan selects: `first` is the lowest-positioned node among those with the smallest non-zero
frequency, `second` the same once `first` is set aside. -/
def Obligations.ScanSelectsTheTwoSmallest : Prop :=
  ∀ ns : List Node,
    ((scan ns).first = none ↔ ∀ n ∈ ns, n.freq = 0) ∧
    (∀ p, (scan ns).first = some p → ns[p.position]? = some p.node ∧ p.node.freq ≠ 0 ∧
      ∀ k n, ns[k]? = some n → n.freq ≠ 0 →
        p.node.freq ≤ n.freq ∧ (k < p.position → p.node.freq < n.freq)) ∧
    ((scan ns).first = none → (scan ns).second = none) ∧
    (∀ p, (scan ns).first = some p → (scan ns).second = none →
      ∀ k n, k ≠ p.position → ns[k]? = some n → n.freq = 0) ∧
    (∀ p q, (scan ns).first = some p → (scan ns).second = some q →
      q.position ≠ p.position ∧ ns[q.position]? = some q.node ∧ q.node.freq ≠ 0 ∧
      ∀ k n, k ≠ p.position → ns[k]? = some n → n.freq ≠ 0 →
        q.node.freq ≤ n.freq ∧ (k < q.position → q.node.freq < n.freq))

/-- R136: with positive frequencies the loop stops with `2n - 1` nodes, the last of them the root, which alone is
not retired and carries the sum of all frequencies; with no positive frequency no round is made. -/
def Obligations.MergeStopsWithOneRoot : Prop :=
  (∀ ps : List FreqPair, ps ≠ [] → AllPositive ps →
    ((Work.seed ps).rounds ps.length).nodes.length = 2 * ps.length - 1 ∧
    (scan ((Work.seed ps).rounds ps.length).nodes).second = none ∧
    (∃ root, ((Work.seed ps).rounds ps.length).nodes.getLast? = some root ∧
      root.freq = (ps.map fun p => p.freq.toNat).sum) ∧
    ∀ k n, k + 1 < 2 * ps.length - 1 → ((Work.seed ps).rounds ps.length).nodes[k]? = some n → n.freq = 0) ∧
  (∀ ps : List FreqPair, (∀ p ∈ ps, p.freq = 0#32) → (Work.seed ps).rounds ps.length = Work.seed ps)

/-- R139: at no point of the loop does a node's frequency leave 64 bits, so exact naturals are the spec's numbers. -/
def Obligations.MergeFrequenciesStayBelowTwoToThe64 : Prop :=
  ∀ (ps : List FreqPair) (k : Nat), ps.length < 2 ^ 32 →
    ∀ n ∈ ((Work.seed ps).rounds k).nodes, n.freq < 2 ^ 64

/-- R140, R80: a leaf's length is at most `n - 1`, and a code whose length is at most 32 lies in its low bits. -/
def Obligations.MergeLengthsAndCodesAreBounded : Prop :=
  ∀ ps : List FreqPair, (mergeRows ps).length = ps.length ∧
    ∀ r ∈ mergeRows ps, r.length ≤ ps.length - 1 ∧ (r.length ≤ 32 → r.code.toNat < 2 ^ r.length)

/-- R144 (K): Kraft equality for two or more positive frequencies. -/
def Obligations.MergeLengthsSatisfyKraftEquality : Prop :=
  ∀ ps : List FreqPair, 2 ≤ ps.length → AllPositive ps →
    ((mergeRows ps).map fun r => (1 / 2 : ℚ) ^ r.length).sum = 1

/-- R144 (F): the codes of the merge are prefix-free, wherever they are codes at all (length at most 32). -/
def Obligations.MergeCodesArePrefixFree : Prop :=
  ∀ ps : List FreqPair, AllPositive ps → (∀ r ∈ mergeRows ps, r.length ≤ 32) → PrefixFree (mergeRows ps)

/-- R142, R143: two or more positive frequencies whose codes stay within 32 bits give `OK` and the book of the
merge's codes; nothing else changes. With `LSB_CODES_REVERSED` on, the codes are reversed on entry as any others are
(R99, R141, D9), and the premise is that they then keep W2, without which the command has no meaning (R112; asking W2 of
the reversed codes is log 16, DESIGN CHOICE). -/
def Obligations.BuildFreqMakesTheBookOfTheMerge : Prop :=
  ∀ (s : State) (ps : List FreqPair) (ml : Nat),
    ps.length ≤ s.params.nmax.toNat → 2 ≤ ps.length → AllPositive ps →
    IsEffectiveMax 0 (mergeRows ps) ml → ml ≤ 32 →
    (s.params.lsbCodesReversed = true → W2 s.params.P (enteredRows s.params (mergeRows ps))) →
    ∃ u, exec (.buildFreq ps) s = .next u ∧ u.response = some .ok ∧ u.bookValid = true ∧
      BookOf s.params.P ml (enteredRows s.params (mergeRows ps)) u.slot ∧ u.draws = s.draws ∧ BuildFrame s u

/-- R99, R141: `BUILD_FREQ` is the merge followed by `BUILD_TABLE` with `maxLength = 0` and `S = 1` on its codes,
errors and refusals included, in every instance, wherever its lengths can be written as 8-bit operands. -/
def Obligations.BuildFreqIsBuildTableOfTheMerge : Prop :=
  ∀ (s : State) (ps : List FreqPair), (∀ r ∈ mergeRows ps, r.length < 256) →
    exec (.buildFreq ps) s = exec (.buildTable 0#8 (handOver ps)) s

/-- R131: `BUILD_FREQ` within `NMAX` is total: it goes on, with `OK` or an error. With `LSB_CODES_REVERSED` on that is
not so: where the reversed codes pass the checks and break W2, the hand-over has no meaning (R99, R141, R112), and
`BUILD_FREQ` stops (log 14, DEDUCED, and log 16, DESIGN CHOICE). -/
def Obligations.BuildFreqStopsOnlyUnderTheSwitch : Prop :=
  ∀ (s : State) (ps : List FreqPair), ps.length ≤ s.params.nmax.toNat →
    (s.params.lsbCodesReversed = false → ∃ u, exec (.buildFreq ps) s = .next u) ∧
    (∀ ml, PassesChecks 0 (enteredRows s.params (mergeRows ps)) ml →
      ¬ W2 s.params.P (enteredRows s.params (mergeRows ps)) →
      exec (.buildFreq ps) s = .refused .illFormedTable)

/-- R131, R145, R141: the ways a `BUILD_FREQ` fails: no pair, one pair, a zero frequency (`ZeroLength`, unless a
longer code makes it `LengthOverflow`), a code above 32 bits. -/
def Obligations.BuildFreqErrors : Prop :=
  ∀ (s : State) (ps : List FreqPair), ps.length ≤ s.params.nmax.toNat →
    (ps = [] → BuildFails (.buildFreq ps) s .emptyAlphabet) ∧
    (ps.length = 1 → BuildFails (.buildFreq ps) s .zeroLength) ∧
    ((∃ r ∈ mergeRows ps, 32 < r.length) → BuildFails (.buildFreq ps) s .lengthOverflow) ∧
    ((∃ p ∈ ps, p.freq = 0#32) → (∀ r ∈ mergeRows ps, r.length ≤ 32) →
      BuildFails (.buildFreq ps) s .zeroLength)

/-- R8, U13: more pairs than `NMAX` have no meaning. -/
def Obligations.BuildFreqIsRefusedAboveCapacity : Prop :=
  ∀ (s : State) (ps : List FreqPair), s.params.nmax.toNat < ps.length →
    exec (.buildFreq ps) s = .refused .overCapacity

/-- R146: the source's tie-break case gets exactly the strings the source demands. -/
def Obligations.SourceTieBreakCase : Prop :=
  mergeRows [⟨0#32, 1#32⟩, ⟨1#32, 1#32⟩, ⟨2#32, 2#32⟩, ⟨3#32, 4#32⟩] =
    [⟨6#32, 3, 0#32⟩, ⟨7#32, 3, 1#32⟩, ⟨2#32, 2, 2#32⟩, ⟨0#32, 1, 3#32⟩]

/-! ## DECODE -/

/-- R151: without a book `DECODE` answers `NoBook`, issues no request, moves nothing and changes nothing. -/
def Obligations.DecodeWithoutABookAnswersNoBook : Prop :=
  ∀ (s : State) (c : CursorId), s.bookValid = false →
    exec (.decode c) s = .next { s with response := some (.error .noBook) }

/-- R154: on a hit `DECODE` consumes exactly the entry's length and answers its symbol, whatever the buckets hold;
its requests are those of R161. -/
def Obligations.DecodeHitConsumesTheEntryLength : Prop :=
  ∀ (s : State) (c : CursorId) (sym : Symbol) (len : Nat),
    s.bookValid = true → s.params.cursorCanFail = false → Memory.wf s.mem →
    s.slot.entry (s.decodeIndex c) = .hit sym len →
    ∃ t, exec (.decode c) s = .next t ∧ t.response = some (.okSymbol sym) ∧ OnlyMoves c len s t ∧
      t.requests = s.requests ++ opening s c len ∧ SameEngine s t ∧ t.inbox = s.inbox

/-- R155, R156: on a miss the buckets are scanned in order; the first pair, in list order, of the first bucket with a
pair for the working code is the answer, and `P + i + 1` bits are consumed for bucket `i`; the requests are those
of R161. -/
def Obligations.DecodeMissAnswersTheFirstBucketMatch : Prop :=
  ∀ (s : State) (c : CursorId) (i : Nat) (pre : List BucketPair) (p : BucketPair) (post : List BucketPair),
    s.bookValid = true → s.params.cursorCanFail = false → Memory.wf s.mem →
    s.slot.entry (s.decodeIndex c) = .invalid → i < s.nbuckets →
    (∀ k, k < i → ∀ q ∈ s.slot.bucket k, q.code.toNat ≠ workingCode s c k) →
    s.slot.bucket i = pre ++ p :: post → (∀ q ∈ pre, q.code.toNat ≠ workingCode s c i) →
    p.code.toNat = workingCode s c i →
    ∃ t, exec (.decode c) s = .next t ∧ t.response = some (.okSymbol p.symbol) ∧
      OnlyMoves c (s.params.P + i + 1) s t ∧
      t.requests = s.requests ++ opening s c s.params.P ++
        pulls c (s.cursor c) ((s.cursor c).pos + s.params.P) (i + 1) ∧
      SameEngine s t ∧ t.inbox = s.inbox

/-- R157: when nothing matches, `DECODE` answers `InvalidCode` and `P + NBUCKETS` bits are gone; the book stays
valid. -/
def Obligations.DecodeWithoutAMatchAnswersInvalidCode : Prop :=
  ∀ (s : State) (c : CursorId),
    s.bookValid = true → s.params.cursorCanFail = false → Memory.wf s.mem →
    s.slot.entry (s.decodeIndex c) = .invalid →
    (∀ k, k < s.nbuckets → ∀ q ∈ s.slot.bucket k, q.code.toNat ≠ workingCode s c k) →
    ∃ t, exec (.decode c) s = .next t ∧ t.response = some (.error .invalidCode) ∧
      OnlyMoves c (s.params.P + s.nbuckets) s t ∧
      t.requests = s.requests ++ opening s c s.params.P ++
        pulls c (s.cursor c) ((s.cursor c).pos + s.params.P) s.nbuckets ∧
      SameEngine s t ∧ t.inbox = s.inbox

/-- R32, R159: `DECODE` writes no engine state, moves no other cursor, changes neither the stream nor the mode of its
own, and never moves it back. -/
def Obligations.DecodeWritesOnlyItsCursorPosition : Prop :=
  ∀ (s t : State) (c : CursorId), Memory.wf s.mem → exec (.decode c) s = .next t →
    SameEngine s t ∧ t.inbox = s.inbox ∧ ∃ n, OnlyMoves c n s t

/-- R62: the result of a `DECODE` depends only on the book and on its own cursor. -/
def Obligations.DecodeReadsOnlyTheBookAndItsCursor : Prop :=
  ∀ (s s' t : State) (c : CursorId), Memory.wf s.mem → Memory.wf s'.mem →
    s'.params = s.params → s'.bookValid = s.bookValid → s'.slot = s.slot → s'.cursor c = s.cursor c →
    exec (.decode c) s = .next t →
    ∃ t', exec (.decode c) s' = .next t' ∧ t'.response = t.response ∧ t'.cursor c = t.cursor c ∧
      ∃ issued, t.requests = s.requests ++ issued ∧ t'.requests = s'.requests ++ issued

/-- R62: decodes on different cursors commute. -/
def Obligations.DecodesOnDifferentCursorsCommute : Prop :=
  ∀ (s : State) (c d : CursorId), c ≠ d → Memory.wf s.mem → s.params.cursorCanFail = false →
    ∃ a ab b ba, exec (.decode c) s = .next a ∧ exec (.decode d) a = .next ab ∧
      exec (.decode d) s = .next b ∧ exec (.decode c) b = .next ba ∧
      ba.response = a.response ∧ ab.response = b.response ∧
      SameEngine ab ba ∧ ∀ h, ab.cursor h = ba.cursor h

/-- R160, R162 (h): for one and the same bit sequence, an LSB-first and an MSB-first cursor give the same symbol and
consume the same bits. -/
def Obligations.DecodeIsTheSameInBothBitOrders : Prop :=
  ∀ (s t : State) (c : CursorId), Memory.wf s.mem → (s.cursor c).Truthful → exec (.decode c) s = .next t →
    ∃ t', exec (.decode c)
        (s.setCursor c { s.cursor c with msb := !(s.cursor c).msb, reportsMsb := !(s.cursor c).msb }) = .next t' ∧
      t'.response = t.response ∧ (t'.cursor c).pos = (t.cursor c).pos

/-- R160: on a book made from explicit prefix-free entries, when an entry's bit string stands next in the stream,
`DECODE` answers that entry's symbol and consumes exactly its length, on either path and for every pad; when none
does, it answers `InvalidCode`. With `LSB_CODES_REVERSED` on, the entries are those after the reversal of D9. -/
def Obligations.DecodeFollowsAPrefixFreeTable : Prop :=
  ∀ (s u : State) (maxLength : Byte) (t : TableOperand) (c : CursorId),
    s.params.cursorCanFail = false → Memory.wf s.mem →
    exec (.buildTable maxLength t) s = .next u → u.response = some .ok →
    PrefixFree (enteredRows s.params (tableRows t)) → (u.cursor c).Truthful →
    (∀ r ∈ enteredRows s.params (tableRows t), (u.cursor c).next r.length = r.string →
      ∃ v, exec (.decode c) u = .next v ∧ v.response = some (.okSymbol r.symbol) ∧ OnlyMoves c r.length u v) ∧
    ((∀ r ∈ enteredRows s.params (tableRows t), (u.cursor c).next r.length ≠ r.string) →
      ∃ v, exec (.decode c) u = .next v ∧ v.response = some (.error .invalidCode) ∧
        OnlyMoves c (u.params.P + u.nbuckets) u v)

/-- R160 for `BUILD_FREQ`: on a book built from frequencies, when a pair's code stands next in the stream, `DECODE`
answers the pair's symbol and consumes the code (the round trip of one symbol). With `LSB_CODES_REVERSED` on, the codes
are those after the reversal of D9 (R99, R141), and the premise is that they are prefix-free; with it off R144 (F) says
they are. -/
def Obligations.DecodeFollowsTheMergeCodes : Prop :=
  ∀ (s u : State) (ps : List FreqPair) (c : CursorId),
    s.params.cursorCanFail = false → Memory.wf s.mem →
    (s.params.lsbCodesReversed = true → PrefixFree (enteredRows s.params (mergeRows ps))) →
    exec (.buildFreq ps) s = .next u → u.response = some .ok → (u.cursor c).Truthful →
    ∀ r ∈ enteredRows s.params (mergeRows ps), (u.cursor c).next r.length = r.string →
      ∃ v, exec (.decode c) u = .next v ∧ v.response = some (.okSymbol r.symbol) ∧ OnlyMoves c r.length u v

/-- R144 (C): on a book built from frequencies `DECODE` answers a symbol of the list for every stream, never
`InvalidCode`. With `LSB_CODES_REVERSED` on (D9), the premise is that the reversed codes are prefix-free; with it off
R144 (F) says the codes are. -/
def Obligations.FreqBookDecodesEveryStream : Prop :=
  ∀ (s u : State) (ps : List FreqPair) (c : CursorId), s.params.cursorCanFail = false →
    (s.params.lsbCodesReversed = true → PrefixFree (enteredRows s.params (mergeRows ps))) →
    exec (.buildFreq ps) s = .next u → u.response = some .ok →
    ∃ v sym, exec (.decode c) u = .next v ∧ v.response = some (.okSymbol sym) ∧ sym ∈ ps.map FreqPair.symbol

/-! ## What the outside does -/

/-- R201: a reset inside a command: there is no book and no response; a build has moved no cursor. A `DECODE` whose
first `k` requests were issued has issued the first `k` of the requests the whole `DECODE` issues, and leaves its cursor
where their skips took it: where it was, or at `P + j` bits further for some `j ≤ NBUCKETS`, or where the whole
`DECODE` would have left it. Every other cursor is untouched. (That the input says how many requests were issued is the
model's, log 9, DEDUCED; the clause on the inbox is log 10, DEDUCED.) -/
def Obligations.ResetInsideACommandAbandonsIt : Prop :=
  (∀ (s t : State) (cmd : Byte) (ops : List Operand) (k : Nat) (rest : List Input),
    s.inbox = .resetDuring cmd ops k :: rest → step s = .next t →
      t.bookValid = false ∧ t.response = none ∧ t.params = s.params ∧ t.inbox = rest ∧
      (cmd ≠ 0x03#8 → t.mem = s.mem)) ∧
  (∀ (s : State) (c : CursorId) (k : Nat) (rest : List Input),
    s.inbox = .resetDuring 0x03#8 [.cursor c] k :: rest → s.params.cursorCanFail = false → Memory.wf s.mem →
      ∃ t v n, step s = .next t ∧
        exec (.decode c) { s with inbox := rest, response := none, requests := [] } = .next v ∧
        t.requests = v.requests.take k ∧ n = skipped (v.requests.take k) ∧ OnlyMoves c n s t ∧
        (n = 0 ∨ (∃ j, j ≤ s.nbuckets ∧ n = s.params.P + j) ∨ OnlyMoves c n s v))

/-- The host places a cursor of its own under a handle, or repositions one (R204, R217): that cursor alone changes.
These inputs are the model's way to give the host its part (log 11). -/
def Obligations.HostPlacesAndRepositionsCursors : Prop :=
  ∀ (s : State) (c : CursorId) (rest : List Input), Memory.wf s.mem →
    (∀ cur, s.inbox = .place c cur :: rest →
      ∃ t, step s = .next t ∧ t.cursor c = cur ∧ (∀ h, h ≠ c → t.cursor h = s.cursor h) ∧ SameEngine s t) ∧
    (∀ pos, s.inbox = .seek c pos :: rest →
      ∃ t, step s = .next t ∧ t.cursor c = { s.cursor c with pos := pos } ∧
        (∀ h, h ≠ c → t.cursor h = s.cursor h) ∧ SameEngine s t)

/-- A launch during which the host breaks a hazard rule is refused under the hazard's name. R61, R64 and D22 leave such
a launch without meaning; the input that stands for it and the refusal are the model's own (log 12, DESIGN CHOICE). -/
def Obligations.BrokenLaunchesAreRefused : Prop :=
  ∀ (s : State) (h : Hazard) (tr : Transaction) (rest : List Input),
    s.inbox = .brokenLaunch h tr :: rest → step s = .refused (.brokenHazard h)

/-- A legal command byte with operands of another form than its row's (R94 gives the form; refusing another is the
model's choice, log 2, DESIGN CHOICE), and a request byte that R100 and U12 say is never issued (refusing one is log 20,
DEDUCED), are refused by name. -/
def Obligations.MalformedTransactionsAreRefused : Prop :=
  ∀ (s : State) (tr : Transaction) (rest : List Input), s.inbox = .launch tr :: rest →
    (decode tr = .error .malformedOperands → step s = .refused .malformedOperands) ∧
    (∀ c req, tr = .request c req →
      (req.extractLsb' 6 2 = 3#2 ∨ 32 < (req.extractLsb' 0 6).toNat ∨
        (req.extractLsb' 6 2 = 0#2 ∧ (req.extractLsb' 0 6).toNat ≠ 0)) →
      step s = .refused .reservedRequest)
end

