-- ==== Sys2Proof/Laws/State.lean ====
section
/-!
SUPPORT. What each update of the state does to each field, true by unfolding, so that no later proof unfolds a record
update.
-/

namespace Sys2Proof.Machine

variable (s : State)

/-! `State.record` -/

@[simp] theorem State.record_params (e : Exchange) : (s.record e).params = s.params := rfl
@[simp] theorem State.record_bookValid (e : Exchange) : (s.record e).bookValid = s.bookValid := rfl
@[simp] theorem State.record_slot (e : Exchange) : (s.record e).slot = s.slot := rfl
@[simp] theorem State.record_mem (e : Exchange) : (s.record e).mem = s.mem := rfl
@[simp] theorem State.record_inbox (e : Exchange) : (s.record e).inbox = s.inbox := rfl
@[simp] theorem State.record_response (e : Exchange) : (s.record e).response = s.response := rfl
@[simp] theorem State.record_requests (e : Exchange) : (s.record e).requests = s.requests ++ [e] := rfl
@[simp] theorem State.record_draws (e : Exchange) : (s.record e).draws = s.draws := rfl

/-! `State.setCursor` -/

@[simp] theorem State.setCursor_params (c : CursorId) (cur : Cursor) : (s.setCursor c cur).params = s.params := rfl
@[simp] theorem State.setCursor_bookValid (c : CursorId) (cur : Cursor) : (s.setCursor c cur).bookValid = s.bookValid := rfl
@[simp] theorem State.setCursor_slot (c : CursorId) (cur : Cursor) : (s.setCursor c cur).slot = s.slot := rfl
@[simp] theorem State.setCursor_mem (c : CursorId) (cur : Cursor) : (s.setCursor c cur).mem = Memory.setCursor c cur s.mem := rfl
@[simp] theorem State.setCursor_inbox (c : CursorId) (cur : Cursor) : (s.setCursor c cur).inbox = s.inbox := rfl
@[simp] theorem State.setCursor_response (c : CursorId) (cur : Cursor) : (s.setCursor c cur).response = s.response := rfl
@[simp] theorem State.setCursor_requests (c : CursorId) (cur : Cursor) : (s.setCursor c cur).requests = s.requests := rfl
@[simp] theorem State.setCursor_draws (c : CursorId) (cur : Cursor) : (s.setCursor c cur).draws = s.draws := rfl

/-! `State.askMsbFirst` -/

@[simp] theorem State.askMsbFirst_params (c : CursorId) : (s.askMsbFirst c).params = s.params := rfl
@[simp] theorem State.askMsbFirst_bookValid (c : CursorId) : (s.askMsbFirst c).bookValid = s.bookValid := rfl
@[simp] theorem State.askMsbFirst_slot (c : CursorId) : (s.askMsbFirst c).slot = s.slot := rfl
@[simp] theorem State.askMsbFirst_mem (c : CursorId) : (s.askMsbFirst c).mem = s.mem := rfl
@[simp] theorem State.askMsbFirst_inbox (c : CursorId) : (s.askMsbFirst c).inbox = s.inbox := rfl
@[simp] theorem State.askMsbFirst_response (c : CursorId) : (s.askMsbFirst c).response = s.response := rfl
@[simp] theorem State.askMsbFirst_requests (c : CursorId) : (s.askMsbFirst c).requests = s.requests ++ [.isMsbFirst c (s.cursor c).reportsMsb] := rfl
@[simp] theorem State.askMsbFirst_draws (c : CursorId) : (s.askMsbFirst c).draws = s.draws := rfl

/-! `State.peek` -/

@[simp] theorem State.peek_params (c : CursorId) (n : Nat) : (s.peek c n).params = s.params := rfl
@[simp] theorem State.peek_bookValid (c : CursorId) (n : Nat) : (s.peek c n).bookValid = s.bookValid := rfl
@[simp] theorem State.peek_slot (c : CursorId) (n : Nat) : (s.peek c n).slot = s.slot := rfl
@[simp] theorem State.peek_mem (c : CursorId) (n : Nat) : (s.peek c n).mem = s.mem := rfl
@[simp] theorem State.peek_inbox (c : CursorId) (n : Nat) : (s.peek c n).inbox = s.inbox := rfl
@[simp] theorem State.peek_response (c : CursorId) (n : Nat) : (s.peek c n).response = s.response := rfl
@[simp] theorem State.peek_requests (c : CursorId) (n : Nat) : (s.peek c n).requests = s.requests ++ [.peekBits c n (BitVec.ofNat 32 ((s.cursor c).peek n))] := rfl
@[simp] theorem State.peek_draws (c : CursorId) (n : Nat) : (s.peek c n).draws = s.draws := rfl

/-! `State.skip` -/

@[simp] theorem State.skip_params (c : CursorId) (n : Nat) : (s.skip c n).params = s.params := rfl
@[simp] theorem State.skip_bookValid (c : CursorId) (n : Nat) : (s.skip c n).bookValid = s.bookValid := rfl
@[simp] theorem State.skip_slot (c : CursorId) (n : Nat) : (s.skip c n).slot = s.slot := rfl
@[simp] theorem State.skip_mem (c : CursorId) (n : Nat) : (s.skip c n).mem = Memory.setCursor c ((s.cursor c).advance n) s.mem := rfl
@[simp] theorem State.skip_inbox (c : CursorId) (n : Nat) : (s.skip c n).inbox = s.inbox := rfl
@[simp] theorem State.skip_response (c : CursorId) (n : Nat) : (s.skip c n).response = s.response := rfl
@[simp] theorem State.skip_requests (c : CursorId) (n : Nat) : (s.skip c n).requests = s.requests ++ [.skip c n] := rfl
@[simp] theorem State.skip_draws (c : CursorId) (n : Nat) : (s.skip c n).draws = s.draws := rfl

/-! `State.respond` -/

@[simp] theorem State.respond_params (r : Response) : (s.respond r).params = s.params := rfl
@[simp] theorem State.respond_bookValid (r : Response) : (s.respond r).bookValid = s.bookValid := rfl
@[simp] theorem State.respond_slot (r : Response) : (s.respond r).slot = s.slot := rfl
@[simp] theorem State.respond_mem (r : Response) : (s.respond r).mem = s.mem := rfl
@[simp] theorem State.respond_inbox (r : Response) : (s.respond r).inbox = s.inbox := rfl
@[simp] theorem State.respond_response (r : Response) : (s.respond r).response = some r := rfl
@[simp] theorem State.respond_requests (r : Response) : (s.respond r).requests = s.requests := rfl
@[simp] theorem State.respond_draws (r : Response) : (s.respond r).draws = s.draws := rfl

/-! `State.loseBook` -/

@[simp] theorem State.loseBook_params : (s.loseBook).params = s.params := rfl
@[simp] theorem State.loseBook_bookValid : (s.loseBook).bookValid = false := rfl
@[simp] theorem State.loseBook_slot : (s.loseBook).slot = CodeBook.stale s.params.P s.draws := rfl
@[simp] theorem State.loseBook_mem : (s.loseBook).mem = s.mem := rfl
@[simp] theorem State.loseBook_inbox : (s.loseBook).inbox = s.inbox := rfl
@[simp] theorem State.loseBook_response : (s.loseBook).response = s.response := rfl
@[simp] theorem State.loseBook_requests : (s.loseBook).requests = s.requests := rfl
@[simp] theorem State.loseBook_draws : (s.loseBook).draws = s.draws + 1 := rfl

/-! `State.install` -/

@[simp] theorem State.install_params (b : CodeBook) : (s.install b).params = s.params := rfl
@[simp] theorem State.install_bookValid (b : CodeBook) : (s.install b).bookValid = true := rfl
@[simp] theorem State.install_slot (b : CodeBook) : (s.install b).slot = b := rfl
@[simp] theorem State.install_mem (b : CodeBook) : (s.install b).mem = s.mem := rfl
@[simp] theorem State.install_inbox (b : CodeBook) : (s.install b).inbox = s.inbox := rfl
@[simp] theorem State.install_response (b : CodeBook) : (s.install b).response = some .ok := rfl
@[simp] theorem State.install_requests (b : CodeBook) : (s.install b).requests = s.requests := rfl
@[simp] theorem State.install_draws (b : CodeBook) : (s.install b).draws = s.draws := rfl

/-! `State.accept` -/

@[simp] theorem State.accept_params : (s.accept).params = s.params := rfl
@[simp] theorem State.accept_bookValid : (s.accept).bookValid = s.bookValid := rfl
@[simp] theorem State.accept_slot : (s.accept).slot = s.slot := rfl
@[simp] theorem State.accept_mem : (s.accept).mem = s.mem := rfl
@[simp] theorem State.accept_inbox : (s.accept).inbox = s.inbox.tail := rfl
@[simp] theorem State.accept_response : (s.accept).response = none := rfl
@[simp] theorem State.accept_requests : (s.accept).requests = [] := rfl
@[simp] theorem State.accept_draws : (s.accept).draws = s.draws := rfl

/-! `State.resetEvent` -/

@[simp] theorem State.resetEvent_params : (s.resetEvent).params = s.params := rfl
@[simp] theorem State.resetEvent_bookValid : (s.resetEvent).bookValid = false := rfl
@[simp] theorem State.resetEvent_slot : (s.resetEvent).slot = CodeBook.stale s.params.P s.draws := rfl
@[simp] theorem State.resetEvent_mem : (s.resetEvent).mem = s.mem := rfl
@[simp] theorem State.resetEvent_inbox : (s.resetEvent).inbox = s.inbox := rfl
@[simp] theorem State.resetEvent_response : (s.resetEvent).response = none := rfl
@[simp] theorem State.resetEvent_requests : (s.resetEvent).requests = s.requests := rfl
@[simp] theorem State.resetEvent_draws : (s.resetEvent).draws = s.draws + 1 := rfl

end Sys2Proof.Machine
end

