-- ==== Sys2Proof/Laws/Bits.lean ====
section
/-!
SUPPORT. Bit strings and operand assembly: sizes, appending, the working code.
-/

namespace Sys2Proof.Machine

theorem Bool.toNat_le_one_of (b : Bool) : b.toNat ≤ 1 := by cases b <;> simp

/-- The fold of `val` from any start. -/
theorem val_foldl (t : List Bool) (a : Nat) :
    t.foldl (fun a b => 2 * a + b.toNat) a = a * 2 ^ t.length + val t := by
  induction t generalizing a with
  | nil => simp [val]
  | cons b t ih =>
    simp only [val, List.foldl_cons, List.length_cons] at *
    rw [ih, ih (2 * 0 + b.toNat)]
    ring

@[simp] theorem val_nil : val [] = 0 := rfl

theorem val_cons (b : Bool) (t : List Bool) : val (b :: t) = b.toNat * 2 ^ t.length + val t := by
  have h := val_foldl t b.toNat
  simpa [val] using h

theorem val_append (t u : List Bool) : val (t ++ u) = val t * 2 ^ u.length + val u := by
  have h := val_foldl u (val t)
  simpa [val, List.foldl_append] using h

theorem val_lt (t : List Bool) : val t < 2 ^ t.length := by
  induction t with
  | nil => simp
  | cons b t ih =>
    rw [val_cons, List.length_cons, Nat.pow_succ]
    have hb : b.toNat * 2 ^ t.length ≤ 1 * 2 ^ t.length := Nat.mul_le_mul_right _ (Bool.toNat_le_one_of b)
    omega

@[simp] theorem lsbVal_nil : lsbVal [] = 0 := rfl

theorem lsbVal_cons (b : Bool) (t : List Bool) : lsbVal (b :: t) = b.toNat + 2 * lsbVal t := rfl

theorem lsbVal_lt (t : List Bool) : lsbVal t < 2 ^ t.length := by
  induction t with
  | nil => simp
  | cons b t ih =>
    rw [lsbVal_cons, List.length_cons, Nat.pow_succ]
    have hb := Bool.toNat_le_one_of b
    omega

theorem rev_lt (n v : Nat) : rev n v < 2 ^ n := by
  induction n generalizing v with
  | zero => simp [rev]
  | succ n ih =>
    have h := ih (v / 2)
    have hv : v % 2 ≤ 1 := by omega
    have hm : v % 2 * 2 ^ n ≤ 1 * 2 ^ n := Nat.mul_le_mul_right _ hv
    simp only [rev, Nat.pow_succ]
    omega

@[simp] theorem str_length (n c : Nat) : (str n c).length = n := by
  induction n generalizing c with
  | zero => rfl
  | succ n ih => simp [str, ih]

/-- `val` undoes `str` (R11). -/
theorem val_str {n c : Nat} (hc : c < 2 ^ n) : val (str n c) = c := by
  induction n generalizing c with
  | zero => simp at hc; simp [str, hc]
  | succ n ih =>
    have hpos : 0 < 2 ^ n := Nat.two_pow_pos n
    rw [str, val_cons, str_length, ih (Nat.mod_lt _ hpos)]
    have hq : c / 2 ^ n < 2 := (Nat.div_lt_iff_lt_mul hpos).2 (by rw [Nat.pow_succ] at hc; omega)
    have hb : ((c / 2 ^ n % 2 == 1) : Bool).toNat = c / 2 ^ n := by
      interval_cases c / 2 ^ n <;> rfl
    rw [hb, Nat.mul_comm]
    exact Nat.div_add_mod c (2 ^ n)

@[simp] theorem Cursor.length_bitsFrom (c : Cursor) (k n : Nat) : (c.bitsFrom k n).length = n := by
  induction n generalizing k with
  | zero => rfl
  | succ n ih => simp [Cursor.bitsFrom, ih]

/-- A run of bits is the first part, then the rest. -/
theorem Cursor.bitsFrom_add (c : Cursor) (k m n : Nat) :
    c.bitsFrom k (m + n) = c.bitsFrom k m ++ c.bitsFrom (k + m) n := by
  induction m generalizing k with
  | zero => simp [Cursor.bitsFrom]
  | succ m ih =>
    rw [Nat.add_right_comm, Cursor.bitsFrom, Cursor.bitsFrom, ih, List.cons_append, Nat.add_right_comm k 1 m,
      Nat.add_assoc k m 1]

/-- A peeked value fits its width. -/
theorem Cursor.peek_lt (c : Cursor) (n : Nat) : c.peek n < 2 ^ n := by
  unfold Cursor.peek
  split
  · simpa using val_lt (c.bitsFrom c.pos n)
  · simpa using lsbVal_lt (c.bitsFrom c.pos n)

/-- A one-bit peek is the next stream bit in either mode. -/
theorem Cursor.peek_one (c : Cursor) : c.peek 1 = (c.bit c.pos).toNat := by
  simp [Cursor.peek, Cursor.bitsFrom, val_cons, lsbVal_cons]

@[simp] theorem Cursor.advance_pos (c : Cursor) (n : Nat) : (c.advance n).pos = c.pos + n := rfl
@[simp] theorem Cursor.advance_msb (c : Cursor) (n : Nat) : (c.advance n).msb = c.msb := rfl
@[simp] theorem Cursor.advance_reportsMsb (c : Cursor) (n : Nat) : (c.advance n).reportsMsb = c.reportsMsb := rfl
@[simp] theorem Cursor.advance_bit (c : Cursor) (n k : Nat) : (c.advance n).bit k = c.bit k := rfl

/-- Moving twice is moving by the sum. -/
@[simp] theorem Cursor.advance_advance (c : Cursor) (m n : Nat) : (c.advance m).advance n = c.advance (m + n) := by
  simp [Cursor.advance, Nat.add_assoc]

/-- Moving does not change the stream. -/
@[simp] theorem Cursor.advance_bitsFrom (c : Cursor) (n k m : Nat) : (c.advance n).bitsFrom k m = c.bitsFrom k m := by
  induction m generalizing k with
  | zero => rfl
  | succ m ih => simp [Cursor.bitsFrom, ih]

/-- The working code takes the new bit as its lowest (R90). -/
theorem extendCode_eq (w : Nat) {b : Nat} (hb : b < 2) : extendCode w b = 2 * w + b := by
  have h := Nat.two_pow_add_eq_or_of_lt (i := 1) (b := b) (by simpa using hb) w
  rw [extendCode, Nat.shiftLeft_eq, Nat.mul_comm, ← h]

/-- The table index is always an index of the table (R153). -/
theorem State.decodeIndex_lt (s : State) (c : CursorId) : s.decodeIndex c < 2 ^ s.params.P := by
  unfold State.decodeIndex tableIndex
  split
  · exact (s.cursor c).peek_lt _
  · exact rev_lt _ _

end Sys2Proof.Machine
end

