-- ==== Sys2Proof/Laws/Book.lean ====
section
/-!
SUPPORT. The book: filling a range, recording a row, searching a bucket, and what a build can answer.
-/

namespace Sys2Proof.Machine

@[simp] theorem length_fillRange (lo n : Nat) (e : PrefixEntry) (j : Nat) (xs : List PrefixEntry) :
    (fillRange lo n e j xs).length = xs.length := by
  induction xs generalizing j with
  | nil => rfl
  | cons x xs ih => simp [fillRange, ih]

/-- The entry at an index after a range is filled. -/
theorem getElem?_fillRange (lo n : Nat) (e : PrefixEntry) (j k : Nat) (xs : List PrefixEntry) :
    (fillRange lo n e j xs)[k]? = xs[k]?.map fun x => if lo ≤ j + k ∧ j + k < lo + n then e else x := by
  induction xs generalizing j k with
  | nil => simp [fillRange]
  | cons x xs ih =>
    cases k with
    | zero => simp [fillRange]
    | succ k => simp [fillRange, ih, Nat.add_assoc, Nat.add_comm 1 k]

@[simp] theorem addRow_maxLen (P : Nat) (b : CodeBook) (r : TableRow) : (b.addRow P r).maxLen = b.maxLen := by
  unfold CodeBook.addRow; split <;> rfl

@[simp] theorem addRow_pt_length (P : Nat) (b : CodeBook) (r : TableRow) :
    (b.addRow P r).pt.length = b.pt.length := by
  unfold CodeBook.addRow; split <;> simp

@[simp] theorem addRow_bk_length (P : Nat) (b : CodeBook) (r : TableRow) :
    (b.addRow P r).bk.length = b.bk.length := by
  unfold CodeBook.addRow; split <;> simp

/-- Population keeps the sizes and the maximum of the book it starts from. -/
theorem foldl_addRow_sizes (P : Nat) (rows : List TableRow) (b : CodeBook) :
    (rows.foldl (CodeBook.addRow P) b).maxLen = b.maxLen ∧
    (rows.foldl (CodeBook.addRow P) b).pt.length = b.pt.length ∧
    (rows.foldl (CodeBook.addRow P) b).bk.length = b.bk.length := by
  induction rows generalizing b with
  | nil => simp
  | cons r rows ih => simpa using ih (b.addRow P r)

theorem populate_maxLen (P ml : Nat) (rows : List TableRow) : (populate P ml rows).maxLen = ml :=
  (foldl_addRow_sizes P rows _).1

theorem populate_pt_length (P ml : Nat) (rows : List TableRow) : (populate P ml rows).pt.length = 2 ^ P := by
  rw [populate, (foldl_addRow_sizes P rows _).2.1]; simp [CodeBook.empty]

theorem populate_bk_length (P ml : Nat) (rows : List TableRow) : (populate P ml rows).bk.length = ml - P := by
  rw [populate, (foldl_addRow_sizes P rows _).2.2]; simp [CodeBook.empty]

/-- Unspecified contents still have `2^P` entries (R22). -/
theorem stale_pt_length (P draw : Nat) : (CodeBook.stale P draw).pt.length = 2 ^ P := by
  simp [CodeBook.stale]

/-- A bucket search finds nothing exactly when no pair has the code. -/
theorem findSymbol_eq_none {w : Nat} {ps : List BucketPair} :
    findSymbol w ps = none ↔ ∀ p ∈ ps, p.code.toNat ≠ w := by
  induction ps with
  | nil => simp [findSymbol]
  | cons p ps ih =>
    simp only [findSymbol, List.mem_cons, forall_eq_or_imp]
    split <;> simp_all

/-- A bucket search answers the first pair with the code (R156). -/
theorem findSymbol_eq_some {w : Nat} {ps : List BucketPair} {sym : Symbol} :
    findSymbol w ps = some sym ↔
      ∃ pre p post, ps = pre ++ p :: post ∧ (∀ q ∈ pre, q.code.toNat ≠ w) ∧ p.code.toNat = w ∧ p.symbol = sym := by
  induction ps with
  | nil => simp [findSymbol]
  | cons p ps ih =>
    simp only [findSymbol]
    split
    next hp =>
      constructor
      · intro h
        exact ⟨[], p, ps, rfl, by simp, hp, by simpa using h⟩
      · rintro ⟨pre, q, post, heq, hpre, hq, hsym⟩
        cases pre with
        | nil => simp at heq; simp [heq.1, hsym]
        | cons a pre => simp at heq hpre; exact absurd hp (heq.1 ▸ hpre.1)
    next hp =>
      rw [ih]
      constructor
      · rintro ⟨pre, q, post, rfl, hpre, hq, hsym⟩
        exact ⟨p :: pre, q, post, rfl, by simpa [hp] using hpre, hq, hsym⟩
      · rintro ⟨pre, q, post, heq, hpre, hq, hsym⟩
        cases pre with
        | nil => simp at heq; exact absurd (heq.1 ▸ hq) hp
        | cons a pre =>
          simp at heq hpre
          exact ⟨pre, q, post, heq.2, hpre.2, hq, hsym⟩

/-! Raising an error. -/

variable (s : State)

@[simp] theorem State.raise_params (e : EngineError) : (s.raise e).params = s.params := by
  unfold State.raise; split <;> rfl
@[simp] theorem State.raise_mem (e : EngineError) : (s.raise e).mem = s.mem := by
  unfold State.raise; split <;> rfl
@[simp] theorem State.raise_inbox (e : EngineError) : (s.raise e).inbox = s.inbox := by
  unfold State.raise; split <;> rfl
@[simp] theorem State.raise_requests (e : EngineError) : (s.raise e).requests = s.requests := by
  unfold State.raise; split <;> rfl
@[simp] theorem State.raise_response (e : EngineError) : (s.raise e).response = some (.error e) := rfl
@[simp] theorem State.raise_cursor (e : EngineError) (h : CursorId) : (s.raise e).cursor h = s.cursor h := by
  simp [State.cursor]

/-- A build error loses the book (R178). -/
theorem State.raise_build {e : EngineError} (he : e.isBuildError = true) :
    s.raise e = s.loseBook.respond (.error e) := by
  simp [State.raise, he]

/-- Another error changes nothing but the response (R178). -/
theorem State.raise_other {e : EngineError} (he : e.isBuildError = false) :
    s.raise e = s.respond (.error e) := by
  simp [State.raise, he]

/-- Only build errors come out of the checks of R114. -/
theorem tableError_isBuildError {maxLength : Nat} {rows : List TableRow} {e : EngineError}
    (h : tableError maxLength rows = some e) : e.isBuildError = true := by
  unfold tableError at h
  split at h
  · cases h; rfl
  split at h
  · cases h; rfl
  split at h
  · cases h; rfl
  split at h
  · cases h; rfl
  · cases h

/-! Entry into `BUILD_TABLE`. -/

@[simp] theorem TableRow.reversed_length (r : TableRow) : r.reversed.length = r.length := rfl
@[simp] theorem TableRow.reversed_symbol (r : TableRow) : r.reversed.symbol = r.symbol := rfl

/-- With the switch of D9 off the entries are as supplied. -/
theorem enteredRows_off {p : Params} (h : p.lsbCodesReversed = false) (rows : List TableRow) :
    enteredRows p rows = rows := by
  simp [enteredRows, h]

/-- With the switch of D9 on every code is reversed. -/
theorem enteredRows_on {p : Params} (h : p.lsbCodesReversed = true) (rows : List TableRow) :
    enteredRows p rows = rows.map TableRow.reversed := by
  simp [enteredRows, h]

/-- Entry keeps the lengths. -/
@[simp] theorem map_length_enteredRows (p : Params) (rows : List TableRow) :
    (enteredRows p rows).map TableRow.length = rows.map TableRow.length := by
  unfold enteredRows
  split
  · rw [List.map_map]; rfl
  · rfl

/-- The effective maximum depends on the lengths alone. -/
theorem effectiveMax_congr {rows rows' : List TableRow}
    (h : rows.map TableRow.length = rows'.map TableRow.length) (maxLength : Nat) :
    effectiveMax maxLength rows = effectiveMax maxLength rows' := by
  have hfold : ∀ rs : List TableRow,
      rs.foldr (fun r m => max r.length m) 0 = (rs.map TableRow.length).foldr max 0 := fun rs => by
    induction rs with
    | nil => rfl
    | cons r rs ih => simp [ih]
  simp only [effectiveMax, hfold, h]

/-- The checks of R114 depend on the lengths alone. -/
theorem tableError_congr {rows rows' : List TableRow}
    (h : rows.map TableRow.length = rows'.map TableRow.length) (maxLength : Nat) :
    tableError maxLength rows = tableError maxLength rows' := by
  have hany : ∀ (f : Nat → Bool) (rs : List TableRow),
      rs.any (fun r => f r.length) = (rs.map TableRow.length).any f := fun f rs => by
    rw [List.any_map]; rfl
  have hnil : rows = [] ↔ rows' = [] := by
    rw [← List.map_eq_nil_iff (f := TableRow.length), h, List.map_eq_nil_iff]
  simp only [tableError, effectiveMax_congr h, hnil,
    hany (fun l => decide (effectiveMax maxLength rows' < l)), hany (fun l => decide (l = 0)), h]

@[simp] theorem effectiveMax_enteredRows (maxLength : Nat) (p : Params) (rows : List TableRow) :
    effectiveMax maxLength (enteredRows p rows) = effectiveMax maxLength rows :=
  effectiveMax_congr (map_length_enteredRows p rows) maxLength

@[simp] theorem tableError_enteredRows (maxLength : Nat) (p : Params) (rows : List TableRow) :
    tableError maxLength (enteredRows p rows) = tableError maxLength rows :=
  tableError_congr (map_length_enteredRows p rows) maxLength

/-- When a build from entries goes on, and to what. -/
theorem State.buildEntries_next {maxLength : Nat} {rows : List TableRow} {u : State}
    (h : s.buildEntries maxLength rows = .next u) :
    (tableError maxLength rows = none → wellFormedRows s.params rows = true) ∧
    u = s.build maxLength (enteredRows s.params rows) := by
  unfold State.buildEntries at h
  rw [tableError_enteredRows] at h
  split at h
  · cases h
  next hn =>
    refine ⟨fun he => ?_, by cases h; rfl⟩
    cases hw : wellFormedRows s.params rows with
    | true => rfl
    | false => exact absurd ⟨he, hw⟩ hn

/-- A build from entries is refused exactly when they pass the checks and break W1 or W2 (R112). -/
theorem State.buildEntries_refused {maxLength : Nat} {rows : List TableRow} :
    s.buildEntries maxLength rows = .refused .illFormedTable ↔
      tableError maxLength rows = none ∧ wellFormedRows s.params rows = false := by
  unfold State.buildEntries
  rw [tableError_enteredRows]
  split <;> simp_all

/-- What a build can do: fail with an error of R114 and no book, or install the populated book (R118, R119). -/
theorem State.build_cases (maxLength : Nat) (rows : List TableRow) :
    (∃ e, tableError maxLength rows = some e ∧ s.build maxLength rows = s.loseBook.respond (.error e)) ∨
    (tableError maxLength rows = none ∧
      s.build maxLength rows = s.install (populate s.params.P (effectiveMax maxLength rows) rows)) := by
  unfold State.build
  cases h : tableError maxLength rows with
  | none => exact .inr ⟨rfl, rfl⟩
  | some e => exact .inl ⟨e, rfl, s.raise_build (tableError_isBuildError h)⟩

end Sys2Proof.Machine
end

