-- ==== Sys2Proof/Laws/Memory.lean ====
section
/-!
SUPPORT. The cursors under their handles: read after write, and every operation keeps the canonical form.
-/

namespace Sys2Proof.Machine

/-- Reading past an optional entry whose handle is another one. -/
theorem Memory.cursor_entry_append_other {h g : CursorId} (hne : g ≠ h) (c : Cursor) (m : Memory) :
    Memory.cursor (Memory.entry h c ++ m) g = Memory.cursor m g := by
  unfold Memory.entry
  split
  · rfl
  · simp [Memory.cursor, Ne.symm hne]

/-- Reading the handle just entered, where the rest does not list it. -/
theorem Memory.cursor_entry_append_same {h : CursorId} (c : Cursor) (m : Memory)
    (hm : Memory.cursor m h = Cursor.fresh h) : Memory.cursor (Memory.entry h c ++ m) h = c := by
  unfold Memory.entry
  split
  next hc => simp [hm, hc]
  next => simp [Memory.cursor]

/-- A handle below every listed one reads fresh. -/
theorem Memory.cursor_of_all_lt {h : CursorId} {m : Memory} (hm : ∀ e ∈ m, h < e.1) :
    Memory.cursor m h = Cursor.fresh h := by
  induction m with
  | nil => rfl
  | cons e m ih =>
    have he : e.1 ≠ h := Nat.ne_of_gt (hm e (by simp))
    simp [Memory.cursor, he, ih fun e' he' => hm e' (by simp [he'])]

/-- A write leaves every other cursor alone. -/
theorem Memory.cursor_setCursor_other {h g : CursorId} (hne : g ≠ h) (c : Cursor) (m : Memory) :
    Memory.cursor (Memory.setCursor h c m) g = Memory.cursor m g := by
  induction m with
  | nil => simpa [Memory.setCursor] using Memory.cursor_entry_append_other hne c []
  | cons e m ih =>
    obtain ⟨k, d⟩ := e
    simp only [Memory.setCursor]
    split
    · exact Memory.cursor_entry_append_other hne c _
    · split
      next hk => rw [Memory.cursor_entry_append_other hne c m]; simp [Memory.cursor, ← hk, Ne.symm hne]
      next => simp [Memory.cursor, ih]

/-- In canonical form, the tail lists only greater handles. -/
theorem Memory.wf_cons {e : CursorId × Cursor} {m : Memory} :
    Memory.wf (e :: m) ↔ (∀ e' ∈ m, e.1 < e'.1) ∧ e.2 ≠ Cursor.fresh e.1 ∧ Memory.wf m := by
  simp only [Memory.wf, List.map_cons, List.pairwise_cons, List.mem_map, List.mem_cons, forall_eq_or_imp]
  constructor
  · rintro ⟨⟨h1, h2⟩, h3, h4⟩
    exact ⟨fun e' he' => h1 _ ⟨e', he', rfl⟩, h3, h2, h4⟩
  · rintro ⟨h1, h3, h2, h4⟩
    exact ⟨⟨by rintro _ ⟨e', he', rfl⟩; exact h1 e' he', h2⟩, h3, h4⟩

/-- A read after a write to the same handle gives the cursor written. -/
theorem Memory.cursor_setCursor_same {m : Memory} (hwf : Memory.wf m) (h : CursorId) (c : Cursor) :
    Memory.cursor (Memory.setCursor h c m) h = c := by
  induction m with
  | nil => simpa [Memory.setCursor] using Memory.cursor_entry_append_same c [] rfl
  | cons e m ih =>
    obtain ⟨k, d⟩ := e
    obtain ⟨hlt, -, hm⟩ := Memory.wf_cons.1 hwf
    simp only [Memory.setCursor]
    split
    next hk =>
      refine Memory.cursor_entry_append_same c _ (Memory.cursor_of_all_lt ?_)
      intro e' he'
      rcases List.mem_cons.1 he' with rfl | he'
      · exact hk
      · exact Nat.lt_trans hk (hlt e' he')
    next =>
      split
      next hk =>
        subst hk
        exact Memory.cursor_entry_append_same c _ (Memory.cursor_of_all_lt hlt)
      next hk => simp [Memory.cursor, Ne.symm hk, ih hm]

/-- An optional entry below a canonical rest is canonical. -/
theorem Memory.wf_entry_append {h : CursorId} (c : Cursor) {m : Memory} (hlt : ∀ e ∈ m, h < e.1)
    (hm : Memory.wf m) : Memory.wf (Memory.entry h c ++ m) := by
  unfold Memory.entry
  split
  · exact hm
  next hc => exact Memory.wf_cons.2 ⟨hlt, hc, hm⟩

/-- The handles a write lists are those listed before and the one written. -/
theorem Memory.mem_setCursor {h : CursorId} {c : Cursor} {m : Memory} {e : CursorId × Cursor}
    (he : e ∈ Memory.setCursor h c m) : e = (h, c) ∨ e ∈ m := by
  have entry_mem : ∀ {e' : CursorId × Cursor}, e' ∈ Memory.entry h c → e' = (h, c) := by
    intro e' he'
    unfold Memory.entry at he'
    split at he' <;> simp_all
  induction m with
  | nil => exact .inl (entry_mem (by simpa [Memory.setCursor] using he))
  | cons a m ih =>
    obtain ⟨k, d⟩ := a
    simp only [Memory.setCursor] at he
    split at he
    · rcases List.mem_append.1 he with he | he
      · exact .inl (entry_mem he)
      · exact .inr he
    · split at he
      · rcases List.mem_append.1 he with he | he
        · exact .inl (entry_mem he)
        · exact .inr (by simp [he])
      · rcases List.mem_cons.1 he with rfl | he
        · exact .inr (by simp)
        · exact (ih he).imp_right (by simp +contextual)

/-- A write keeps the canonical form. -/
theorem Memory.wf_setCursor {m : Memory} (hwf : Memory.wf m) (h : CursorId) (c : Cursor) :
    Memory.wf (Memory.setCursor h c m) := by
  induction m with
  | nil => simpa [Memory.setCursor] using Memory.wf_entry_append (h := h) c (m := []) (by simp) hwf
  | cons e m ih =>
    obtain ⟨k, d⟩ := e
    obtain ⟨hlt, hd, hm⟩ := Memory.wf_cons.1 hwf
    simp only [Memory.setCursor]
    split
    next hk =>
      refine Memory.wf_entry_append c ?_ hwf
      intro e' he'
      rcases List.mem_cons.1 he' with rfl | he'
      · exact hk
      · exact Nat.lt_trans hk (hlt e' he')
    next hk =>
      split
      next hk' => subst hk'; exact Memory.wf_entry_append c hlt hm
      next hk' =>
        refine Memory.wf_cons.2 ⟨fun e' he' => ?_, hd, ih hm⟩
        rcases Memory.mem_setCursor he' with rfl | he'
        · exact Nat.lt_of_le_of_ne (Nat.le_of_not_lt hk) (Ne.symm hk')
        · exact hlt e' he'

/-- Reset places no cursor. -/
theorem Memory.wf_reset : Memory.wf State.reset.mem := by decide

variable (s : State)

/-- The cursor under `c` after a write to `c`. -/
theorem State.cursor_setCursor_same (hwf : Memory.wf s.mem) (c : CursorId) (cur : Cursor) :
    (s.setCursor c cur).cursor c = cur :=
  Memory.cursor_setCursor_same hwf c cur

/-- Any other cursor after a write to `c`. -/
theorem State.cursor_setCursor_other {c h : CursorId} (hne : h ≠ c) (cur : Cursor) :
    (s.setCursor c cur).cursor h = s.cursor h :=
  Memory.cursor_setCursor_other hne cur s.mem

@[simp] theorem State.record_cursor (e : Exchange) (h : CursorId) : (s.record e).cursor h = s.cursor h := rfl
@[simp] theorem State.askMsbFirst_cursor (c h : CursorId) : (s.askMsbFirst c).cursor h = s.cursor h := rfl
@[simp] theorem State.peek_cursor (c h : CursorId) (n : Nat) : (s.peek c n).cursor h = s.cursor h := rfl
@[simp] theorem State.respond_cursor (r : Response) (h : CursorId) : (s.respond r).cursor h = s.cursor h := rfl
@[simp] theorem State.loseBook_cursor (h : CursorId) : s.loseBook.cursor h = s.cursor h := rfl
@[simp] theorem State.install_cursor (b : CodeBook) (h : CursorId) : (s.install b).cursor h = s.cursor h := rfl
@[simp] theorem State.accept_cursor (h : CursorId) : s.accept.cursor h = s.cursor h := rfl
@[simp] theorem State.resetEvent_cursor (h : CursorId) : s.resetEvent.cursor h = s.cursor h := rfl

/-- `SKIP` moves its own cursor. -/
theorem State.skip_cursor_same (hwf : Memory.wf s.mem) (c : CursorId) (n : Nat) :
    (s.skip c n).cursor c = (s.cursor c).advance n :=
  s.cursor_setCursor_same hwf c _

/-- `SKIP` moves no other cursor. -/
theorem State.skip_cursor_other {c h : CursorId} (hne : h ≠ c) (n : Nat) : (s.skip c n).cursor h = s.cursor h :=
  s.cursor_setCursor_other hne _

/-- `SKIP` keeps the canonical form. -/
theorem State.wf_skip (hwf : Memory.wf s.mem) (c : CursorId) (n : Nat) : Memory.wf (s.skip c n).mem :=
  Memory.wf_setCursor hwf c _

/-- Writing a cursor keeps the canonical form. -/
theorem State.wf_setCursor (hwf : Memory.wf s.mem) (c : CursorId) (cur : Cursor) :
    Memory.wf (s.setCursor c cur).mem :=
  Memory.wf_setCursor hwf c cur

/-- Asking again keeps the canonical form. -/
theorem State.wf_reissue (hwf : Memory.wf s.mem) (e : Exchange) : Memory.wf (s.reissue e).mem := by
  cases e with
  | isMsbFirst c r => exact hwf
  | peekBits c n v => exact hwf
  | skip c n => exact s.wf_skip hwf c n

/-! ## Requests issued again -/

@[simp] theorem skipped_nil : skipped [] = 0 := rfl
@[simp] theorem skipped_cons (e : Exchange) (es : List Exchange) : skipped (e :: es) = e.bits + skipped es := by
  simp [skipped]
@[simp] theorem skipped_append (es fs : List Exchange) : skipped (es ++ fs) = skipped es + skipped fs := by
  simp [skipped]

/-- Issuing a request again changes only the cursors and the requests. -/
theorem State.reissue_frame (e : Exchange) : (s.reissue e).params = s.params ∧
    (s.reissue e).bookValid = s.bookValid ∧ (s.reissue e).slot = s.slot ∧ (s.reissue e).draws = s.draws ∧
    (s.reissue e).inbox = s.inbox ∧ (s.reissue e).response = s.response := by
  cases e <;> exact ⟨rfl, rfl, rfl, rfl, rfl, rfl⟩

end Sys2Proof.Machine
end

