-- ==== Sys2Proof/Laws/Exec.lean ====
section
/-!
SUPPORT. What each instruction can do, said once: the cases of the bucket scan, of a decode, of a build, of `exec` and
of `step`.
-/

namespace Sys2Proof.Machine

/-! ## Pulling bits one at a time -/

/-- `n` times `PEEK_BITS 1`, `SKIP 1`. -/
def State.pull (c : CursorId) : Nat → State → State
  | 0, s => s
  | n + 1, s => State.pull c n ((s.peek c 1).skip c 1)

section Pull
variable (c : CursorId) (n : Nat) (s : State)

/-- Pulling bits changes only the cursors and the requests. -/
theorem State.pull_frame : (s.pull c n).params = s.params ∧ (s.pull c n).bookValid = s.bookValid ∧
    (s.pull c n).slot = s.slot ∧ (s.pull c n).draws = s.draws ∧ (s.pull c n).inbox = s.inbox ∧
    (s.pull c n).response = s.response := by
  induction n generalizing s with
  | zero => simp [State.pull]
  | succ n ih => simpa [State.pull] using ih ((s.peek c 1).skip c 1)

/-- Pulling bits keeps the canonical form. -/
theorem State.wf_pull (hwf : Memory.wf s.mem) : Memory.wf (s.pull c n).mem := by
  induction n generalizing s with
  | zero => exact hwf
  | succ n ih => exact ih _ ((s.peek c 1).wf_skip hwf c 1)

/-- Pulling `n` bits moves the cursor by `n`. -/
theorem State.pull_cursor_same (hwf : Memory.wf s.mem) : (s.pull c n).cursor c = (s.cursor c).advance n := by
  induction n generalizing s with
  | zero => simp [State.pull, Cursor.advance]
  | succ n ih =>
    have hwf' := (s.peek c 1).wf_skip hwf c 1
    rw [State.pull, ih _ hwf', State.skip_cursor_same (s.peek c 1) hwf, State.peek_cursor, Cursor.advance_advance,
      Nat.add_comm]

/-- Pulling bits moves no other cursor. -/
theorem State.pull_cursor_other {h : CursorId} (hne : h ≠ c) : (s.pull c n).cursor h = s.cursor h := by
  induction n generalizing s with
  | zero => rfl
  | succ n ih => rw [State.pull, ih, State.skip_cursor_other _ hne, State.peek_cursor]

end Pull

/-- The bucket scan pulls bits until a bucket answers, or through all buckets (R156, R157). -/
theorem scanBuckets_cases (c : CursorId) (k i w : Nat) (s : State) :
    (∃ n sym, n < k ∧ scanBuckets c k i w s = (s.pull c (n + 1)).respond (.okSymbol sym)) ∨
    scanBuckets c k i w s = (s.pull c k).respond (.error .invalidCode) := by
  induction k generalizing i w s with
  | zero => exact .inr (s.raise_other rfl)
  | succ k ih =>
    simp only [scanBuckets]
    split
    next sym _ => exact .inl ⟨0, sym, Nat.succ_pos k, rfl⟩
    next =>
      rcases ih (i + 1) _ ((s.peek c 1).skip c 1) with ⟨n, sym, hn, h⟩ | h
      · exact .inl ⟨n + 1, sym, Nat.succ_lt_succ hn, h⟩
      · exact .inr h

/-- The state after the first three requests of a decode that skips `n` bits (R161). -/
def State.opened (c : CursorId) (n : Nat) (s : State) : State :=
  ((s.askMsbFirst c).peek c s.params.P).skip c n

/-- What a decode against a valid book can do (R161): hit, match after some buckets, or exhaust them. -/
theorem State.decodeSymbol_cases (s : State) (c : CursorId) :
    (∃ sym len, s.slot.entry (s.decodeIndex c) = .hit sym len ∧
      s.decodeSymbol c = (s.opened c len).respond (.okSymbol sym)) ∨
    (s.slot.entry (s.decodeIndex c) = .invalid ∧
      ((∃ n sym, n < s.nbuckets ∧
          s.decodeSymbol c = ((s.opened c s.params.P).pull c (n + 1)).respond (.okSymbol sym)) ∨
        s.decodeSymbol c = ((s.opened c s.params.P).pull c s.nbuckets).respond (.error .invalidCode))) := by
  unfold State.decodeSymbol
  cases h : s.slot.entry (s.decodeIndex c) with
  | hit sym len => exact .inl ⟨sym, len, rfl, rfl⟩
  | invalid => exact .inr ⟨rfl, scanBuckets_cases c s.nbuckets 0 _ _⟩

/-! ## The instructions -/

/-- When `BUILD_TABLE` goes on, and to what. -/
theorem execBuildTable_next {maxLength : Byte} {t : TableOperand} {s u : State}
    (h : execBuildTable maxLength t s = .next u) :
    t.count ≤ s.params.nmax.toNat ∧
    (tableError maxLength.toNat (tableRows t) = none → wellFormedRows s.params (tableRows t) = true) ∧
    u = s.build maxLength.toNat (enteredRows s.params (tableRows t)) := by
  unfold execBuildTable at h
  split at h
  · cases h
  next h1 => exact ⟨Nat.le_of_not_lt h1, s.buildEntries_next h⟩

/-- When `BUILD_FREQ` goes on, and to what. -/
theorem execBuildFreq_next {ps : List FreqPair} {s u : State} (h : execBuildFreq ps s = .next u) :
    ps.length ≤ s.params.nmax.toNat ∧
    (tableError 0 (mergeRows ps) = none → wellFormedRows s.params (mergeRows ps) = true) ∧
    u = s.build 0 (enteredRows s.params (mergeRows ps)) := by
  unfold execBuildFreq at h
  split at h
  · cases h
  next h1 => exact ⟨Nat.le_of_not_lt h1, s.buildEntries_next h⟩

/-- When `DECODE` goes on, and to what. -/
theorem execDecode_next {c : CursorId} {s u : State} (h : execDecode c s = .next u) :
    (s.bookValid = false ∧ u = s.respond (.error .noBook)) ∨
    (s.bookValid = true ∧ s.params.cursorCanFail = false ∧ u = s.decodeSymbol c) := by
  unfold execDecode at h
  split at h
  next hb => exact .inl ⟨hb, by cases h; exact s.raise_other rfl⟩
  next hb =>
    split at h
    · cases h
    next hc => exact .inr ⟨by simpa using hb, by simpa using hc, by cases h; rfl⟩

/-- Every instruction that goes on does one of these. -/
theorem exec_next {i : Instr} {s u : State} (h : exec i s = .next u) :
    (∃ maxLength t, i = .buildTable maxLength t ∧
      u = s.build maxLength.toNat (enteredRows s.params (tableRows t))) ∨
    (∃ ps, i = .buildFreq ps ∧ u = s.build 0 (enteredRows s.params (mergeRows ps))) ∨
    (∃ c, i = .decode c ∧ s.bookValid = false ∧ u = s.respond (.error .noBook)) ∨
    (∃ c, i = .decode c ∧ s.bookValid = true ∧ u = s.decodeSymbol c) ∨
    (∃ c, i = .isMsbFirst c ∧ u = s.askMsbFirst c) ∨
    (∃ c n, i = .peekBits c n ∧ u = s.peek c n.val) ∨
    (∃ c n, i = .skip c n ∧ u = s.skip c n.val) := by
  cases i with
  | buildTable maxLength t => exact .inl ⟨maxLength, t, rfl, (execBuildTable_next h).2.2⟩
  | buildFreq ps => exact .inr (.inl ⟨ps, rfl, (execBuildFreq_next h).2.2⟩)
  | decode c =>
    rcases execDecode_next h with ⟨hb, hu⟩ | ⟨hb, -, hu⟩
    · exact .inr (.inr (.inl ⟨c, rfl, hb, hu⟩))
    · exact .inr (.inr (.inr (.inl ⟨c, rfl, hb, hu⟩)))
  | isMsbFirst c => exact .inr (.inr (.inr (.inr (.inl ⟨c, rfl, by cases h; rfl⟩))))
  | peekBits c n =>
    refine .inr (.inr (.inr (.inr (.inr (.inl ⟨c, n, rfl, ?_⟩)))))
    simp only [exec, execPeekBits] at h
    split at h
    · cases h
    · cases h; rfl
  | skip c n => exact .inr (.inr (.inr (.inr (.inr (.inr ⟨c, n, rfl, by cases h; rfl⟩)))))

/-! ## The step -/

/-- The step takes the first input, on the state that has accepted it. -/
theorem step_cons {s : State} {input : Input} {rest : List Input} (h : s.inbox = input :: rest) :
    step s = runInput s.accept input := by
  simp [step, h]

/-- With nothing to do the engine stays as it is. -/
theorem step_idle {s : State} (h : s.inbox = []) : step s = .next s := by
  simp [step, h]

/-- What a transaction can do when the machine goes on: run its instruction, or answer `IllegalCommand`. -/
theorem runLaunch_next {t : Transaction} {s u : State} (h : runLaunch t s = .next u) :
    (∃ i, decode t = .ok i ∧ exec i s = .next u) ∨
    (decode t = .error .illegalCommand ∧ u = s.respond (.error .illegalCommand)) := by
  unfold runLaunch at h
  split at h
  next i hi => exact .inl ⟨i, hi, h⟩
  next e he =>
    cases e with
    | illegalCommand =>
      exact .inr ⟨he, by cases h; exact s.raise_other rfl⟩
    | malformedOperands => cases h
    | reservedRequest => cases h

end Sys2Proof.Machine
end

