-- ==== Sys2Proof/Laws/PerInstr.lean ====
section
/-!
SUPPORT. Laws that hold of every instruction, one lemma for each constructor. `RowMatch`: the byte of the encoding fits
the instruction's row of spec/opcode_table.json.
-/

namespace Sys2Proof.Laws.RowMatch

/-- The encoded byte, masked, is the row's match value (spec/30_encoding.md R101). -/
def Statement (i : Instr) : Prop := (encode i).byte &&& i.row.2 = i.row.1

theorem buildTable (maxLength : Byte) (t : TableOperand) : Statement (.buildTable maxLength t) := by
  cases t with
  | indexed es => exact show (0x01#8 &&& 0xFB#8 : Byte) = 0x01#8 by decide
  | named es => exact show (0x05#8 &&& 0xFB#8 : Byte) = 0x01#8 by decide

theorem buildFreq (ps : List FreqPair) : Statement (.buildFreq ps) :=
  show (0x02#8 &&& 0xFF#8 : Byte) = 0x02#8 by decide

theorem decode (c : CursorId) : Statement (.decode c) :=
  show (0x03#8 &&& 0xFF#8 : Byte) = 0x03#8 by decide

theorem isMsbFirst (c : CursorId) : Statement (.isMsbFirst c) :=
  show (0x00#8 &&& 0xFF#8 : Byte) = 0x00#8 by decide

theorem peekBits (c : CursorId) (n : Fin 33) : Statement (.peekBits c n) :=
  have h : ∀ k : Fin 33, peekBitsReq k.val &&& 0xC0#8 = 0x40#8 := by decide
  h n

theorem skip (c : CursorId) (n : Fin 33) : Statement (.skip c n) :=
  have h : ∀ k : Fin 33, skipReq k.val &&& 0xC0#8 = 0x80#8 := by decide
  h n

end Sys2Proof.Laws.RowMatch
end

