-- ==== Sys2Proof/Tests/Slice0.lean ====
section
/-!
SUPPORT. Small tests against the vectors of spec/95_test_vectors.md and the encodings of spec/30_encoding.md, the
smoke test of WellFormed, and for every statement with hypotheses a witness that meets them together.
-/

namespace Sys2Proof.Machine.Tests

/-! ## Helpers -/

/-- What a next state satisfies; false for a stop. -/
def after (o : Host.Outcome State Fault Refusal) (f : State → Bool) : Bool :=
  match o with
  | .next t => f t
  | .fault _ => false
  | .refused _ => false

/-- The refusal, if the outcome is one. -/
def refusal (o : Host.Outcome State Fault Refusal) : Option Refusal :=
  match o with
  | .next _ => none
  | .fault _ => none
  | .refused r => some r

/-- A cursor over the bits of a number written in binary, `n` of them, first stream bit on top. -/
def stream (n bits : Nat) (msb : Bool) : Cursor :=
  { payload := str n bits, padId := 0, pos := 0, msb := msb, reportsMsb := msb }

/-- The state after reset, with cursor 1 placed. -/
def bench (cur : Cursor) : State := { State.reset with mem := [(1, cur)] }

/-- The book of V-T11 (`P = 2`; codes "0", "10", "110", "111"). -/
def smallBook : CodeBook :=
  { maxLen := 3
    pt := [.hit 0#32 1, .hit 0#32 1, .hit 1#32 2, .invalid]
    bk := [[⟨6#32, 2#32⟩, ⟨7#32, 3#32⟩]] }

/-- An instance with `P = 2`, the book of V-T11, and cursor 1 placed. -/
def small (cur : Cursor) : State :=
  { bench cur with params := Params.ofWidth 2 (by decide) (by decide), bookValid := true, slot := smallBook }

/-- The same instance with the code "111" missing, so that a stream of ones matches nothing. -/
def holed (cur : Cursor) : State :=
  { small cur with slot := { smallBook with bk := [[⟨6#32, 2#32⟩]] } }

/-- The same instance without a book. -/
def bare (cur : Cursor) : State := { small cur with bookValid := false }

/-- The source's explicit table (S2): "0", "10", "11" for 65, 66, 67. -/
def abc : TableOperand := .named [(⟨0#32, 1#8⟩, 65#32), (⟨2#32, 2#8⟩, 66#32), (⟨3#32, 2#8⟩, 67#32)]

/-- An incomplete table, "0" and "10". -/
def holes : TableOperand := .indexed [⟨0#32, 1#8⟩, ⟨2#32, 2#8⟩]

/-- The source's frequencies (S1). -/
def tieBreak : List FreqPair := [⟨0#32, 1#32⟩, ⟨1#32, 1#32⟩, ⟨2#32, 2#32⟩, ⟨3#32, 4#32⟩]

/-! ## WellFormed -/

/-- A count that needs 33 bits is refused for an explicit table, with and without symbols. -/
theorem test_wellFormed_refuses_long_table (es : List CodeEntry) (h : es.length = 2 ^ 32) (m : Byte) :
    (Instr.buildTable m (.indexed es)).wellFormed = false := by
  simp [Instr.wellFormed, TableOperand.count, h]

theorem test_wellFormed_refuses_long_named_table (es : List (CodeEntry × Symbol)) (h : es.length = 2 ^ 32)
    (m : Byte) : (Instr.buildTable m (.named es)).wellFormed = false := by
  simp [Instr.wellFormed, TableOperand.count, h]

/-- The same for a frequency list. -/
theorem test_wellFormed_refuses_long_list (ps : List FreqPair) (h : ps.length = 2 ^ 32) :
    (Instr.buildFreq ps).wellFormed = false := by
  simp [Instr.wellFormed, h]

/-- Such terms exist. -/
theorem test_long_lists_exist : ∃ ps : List FreqPair, ps.length = 2 ^ 32 :=
  ⟨List.replicate (2 ^ 32) ⟨0#32, 1#32⟩, List.length_replicate ..⟩

theorem test_wellFormed_accepts : (Instr.buildTable 0#8 abc).wellFormed = true := by decide

/-! ## Words of R94 and R100, one for each constructor -/

theorem test_word_build_table_symbols :
    decode (.command 0b00000101#8 [.byte 0#8, .word 1#32, .word 2#32, .byte 2#8, .word 66#32]) =
      .ok (.buildTable 0#8 (.named [(⟨2#32, 2#8⟩, 66#32)])) := by decide +kernel
theorem test_word_build_table_indexed :
    decode (.command 0b00000001#8 [.byte 33#8, .word 1#32, .word 0#32, .byte 1#8]) =
      .ok (.buildTable 33#8 (.indexed [⟨0#32, 1#8⟩])) := by decide +kernel
theorem test_word_build_freq :
    decode (.command 0b00000010#8 [.word 1#32, .word 9#32, .word 7#32]) = .ok (.buildFreq [⟨9#32, 7#32⟩]) := by
  decide +kernel
theorem test_word_decode : decode (.command 0b00000011#8 [.cursor 4]) = .ok (.decode 4) := by decide
theorem test_word_is_msb_first : decode (.request 4 0b00000000#8) = .ok (.isMsbFirst 4) := by decide
theorem test_word_peek_bits : decode (.request 4 0b01001000#8) = .ok (.peekBits 4 8) := by decide
theorem test_word_skip : decode (.request 4 0b10000011#8) = .ok (.skip 4 3) := by decide

/-- V-X5 to V-X9: illegal bytes, whatever follows. -/
theorem test_illegal_bytes :
    [0x00#8, 0x04#8, 0x06#8, 0x07#8, 0x0B#8, 0x81#8, 0xFF#8].map decodeCmdByte =
      [none, none, none, none, none, none, none] := by decide

/-- A missing or surplus operand is rejected by name. -/
theorem test_malformed_operands :
    decode (.command 0x03#8 []) = .error .malformedOperands ∧
    decode (.command 0x02#8 [.word 0#32, .word 0#32]) = .error .malformedOperands := by decide

/-- R100: counts above 32 and the kind `11` are never issued. -/
theorem test_reserved_requests :
    decode (.request 0 0x61#8) = .error .reservedRequest ∧ decode (.request 0 0xC0#8) = .error .reservedRequest ∧
    decode (.request 0 0x01#8) = .error .reservedRequest := by decide

/-- The words of the opcode table. -/
theorem test_table_words :
    decodeTableWord 8 0x01 = some (.buildTable 0#8 (.indexed [])) ∧ decodeTableWord 8 0x02 = some (.buildFreq []) ∧
    decodeTableWord 8 0x03 = some (.decode 0) ∧ decodeTableWord 8 0x00 = some (.isMsbFirst 0) ∧
    decodeTableWord 8 0x40 = some (.peekBits 0 0) ∧ decodeTableWord 8 0x80 = some (.skip 0 0) := by decide +kernel

/-- Every table word runs as the first instruction after reset. -/
theorem test_table_words_run :
    [0x01, 0x05, 0x02, 0x03, 0x00, 0x48, 0x88].all
      (fun w => after (step (State.reset.withFetchWord 8 w)) fun _ => true) = true := by decide +kernel

/-! ## Vectors of spec/95_test_vectors.md -/

/-- V-C1 and the bit reversals of 2.1. -/
theorem test_peek_bits :
    (stream 10 0b1101000110 true).peek 8 = 209 ∧ (stream 10 0b1101000110 false).peek 8 = 139 := by decide +kernel
theorem test_rev : rev 8 139 = 209 ∧ rev 8 11 = 208 ∧ rev 3 6 = 3 ∧ rev 2 2 = 1 := by decide

/-- V-C7: skip 3, then peek 4. -/
theorem test_skip :
    after (exec (.skip 1 3) (bench (stream 10 0b1101000110 true)))
      (fun t => decide ((t.cursor 1).pos = 3) && decide ((t.cursor 1).peek 4 = 8)) = true := by decide +kernel

/-- V-C8. -/
theorem test_is_msb_first :
    after (exec (.isMsbFirst 1) (bench (stream 10 0b1101000110 false)))
      (fun t => decide (t.requests = [.isMsbFirst 1 false])) = true := by decide +kernel

/-- V-T1 (S2): the borders of the three fill ranges at `P = 8`. -/
theorem test_build_table :
    after (exec (.buildTable 0#8 abc) State.reset) (fun t =>
      decide (t.response = some .ok) && decide (t.slot.maxLen = 2) && decide (t.slot.bk = []) &&
      decide ([0, 127, 128, 191, 192, 255].map t.slot.entry =
        [.hit 65#32 1, .hit 65#32 1, .hit 66#32 2, .hit 66#32 2, .hit 67#32 2, .hit 67#32 2])) = true := by
  decide +kernel

/-- V-T11: both tiers at `P = 2`; V-T30: W2 broken. -/
theorem test_build_table_long_codes :
    after (exec (.buildTable 0#8 (.indexed [⟨0#32, 1#8⟩, ⟨2#32, 2#8⟩, ⟨6#32, 3#8⟩, ⟨7#32, 3#8⟩]))
      (bare (stream 0 0 true))) (fun t => t.bookValid && decide (t.slot = smallBook)) = true ∧
    refusal (exec (.buildTable 0#8 (.named [(⟨0#32, 1#8⟩, 1#32), (⟨1#32, 2#8⟩, 2#32)])) State.reset) =
      some .illFormedTable := by decide +kernel

/-- V-F2: the hand-down. -/
theorem test_build_freq_hand_down :
    (mergeRows [⟨0#32, 5#32⟩, ⟨1#32, 3#32⟩, ⟨2#32, 6#32⟩]).map (fun r => (r.code.toNat, r.length)) =
      [(3, 2), (2, 2), (0, 1)] := by decide +kernel

/-- V-F9 and V-F6. -/
theorem test_build_freq :
    after (exec (.buildFreq [⟨9#32, 7#32⟩]) (small (stream 0 0 true)))
      (fun t => decide (t.response = some (.error .zeroLength)) && !t.bookValid) = true ∧
    (mergeRows [⟨0#32, 5#32⟩, ⟨1#32, 9#32⟩, ⟨2#32, 12#32⟩, ⟨3#32, 13#32⟩, ⟨4#32, 16#32⟩, ⟨5#32, 45#32⟩]).map
      (fun r => (r.code.toNat, r.length)) = [(12, 4), (13, 4), (4, 3), (5, 3), (7, 3), (0, 1)] := by decide +kernel

/-- V-D11, first row: the bucket path on an LSB-first cursor, with its requests. -/
theorem test_decode_bucket :
    after (exec (.decode 1) (small (stream 7 0b1110110 false))) (fun t =>
      decide (t.response = some (.okSymbol 3#32)) && decide ((t.cursor 1).pos = 3) &&
      decide (t.requests = [.isMsbFirst 1 false, .peekBits 1 2 3#32, .skip 1 2, .peekBits 1 1 1#32, .skip 1 1])) =
      true := by decide +kernel

/-- V-D11, second row (from position 3): the fast path, LSB-first reply 2. -/
theorem test_decode_fast :
    after (exec (.decode 1) (small ((stream 7 0b1110110 false).advance 3))) (fun t =>
      decide (t.response = some (.okSymbol 0#32)) && decide ((t.cursor 1).pos = 4) &&
      decide (t.requests = [.isMsbFirst 1 false, .peekBits 1 2 2#32, .skip 1 1])) = true := by decide +kernel

/-! ## Witnesses: for each statement with hypotheses, values that meet them together -/

/-- A stream of three ones, the code of symbol 3, then padding bits. -/
def ones : Cursor := stream 8 0b11100000 true

/-- The benches are in canonical form. -/
theorem witness_mem_wf : Memory.wf (small ones).mem ∧ Memory.wf (bench ones).mem ∧ Memory.wf (bare ones).mem ∧
    Memory.wf (holed ones).mem := by decide

theorem witness_ResetEventLeavesNoBookAndKeepsCursors :
    { small ones with inbox := [.reset] }.inbox = .reset :: [] := rfl

/-- The book of V-T11 is sound at `P = 2`. -/
theorem smallBook_sound : smallBook.Sound 2 where
  maxLen_pos := by decide
  maxLen_le := by decide
  bk_length := by decide
  entry_length := fun j sym len h => by
    match j, h with
    | 0, h => cases h; decide
    | 1, h => cases h; decide
    | 2, h => cases h; decide
    | 3, h => cases h
    | j + 4, h => cases h
  pair_code := fun i p hp => by
    match i, hp with
    | 0, hp =>
      have hall : ∀ q ∈ smallBook.bucket 0, q.code.toNat < 2 ^ (2 + 1 + 0) := by decide
      exact hall p hp
    | i + 1, hp => exact absurd hp List.not_mem_nil

/-- The small instance meets the invariant, with a valid book. -/
theorem small_inv (cur : Cursor) (hcur : cur ≠ Cursor.fresh 1) (inbox : List Input) :
    { small cur with inbox := inbox }.Inv where
  mem_wf := by simpa [small, bench, Memory.wf] using hcur
  pt_length := rfl
  book := fun _ => smallBook_sound

theorem witness_StepKeepsInvariant :
    ∃ s t : State, s.Inv ∧ s.bookValid = true ∧ step s = .next t ∧ t.response = some (.okSymbol 3#32) :=
  ⟨{ small ones with inbox := [.launch (.command 0x03#8 [.cursor 1])] }, _, small_inv ones (by decide) _, rfl, rfl,
    by decide +kernel⟩

theorem witness_StepKeepsInstanceConstants :
    ∃ t, step { small ones with inbox := [.launch (.command 0x03#8 [.cursor 1])] } = .next t := ⟨_, rfl⟩

theorem witness_StepRunsTheDecodedInstruction :
    ({ small ones with inbox := [.launch (.command 0x03#8 [.cursor 1])] }.inbox =
        .launch (.command 0x03#8 [.cursor 1]) :: [] ∧
      decode (.command 0x03#8 [.cursor 1]) = .ok (.decode 1)) ∧ State.reset.inbox = [] :=
  ⟨⟨rfl, by decide⟩, rfl⟩

theorem witness_StepTakesInputsInOrder :
    ∃ t, step { small ones with inbox := [.launch (.request 1 0x81#8), .reset] } = .next t ∧ t.inbox = [.reset] :=
  ⟨_, rfl, rfl⟩

theorem witness_OnlyCommandsRespondAndOnlyDecodeCarriesASymbol :
    (∃ t, step { small ones with inbox := [.launch (.command 0x03#8 [.cursor 1])] } = .next t ∧
      t.response = some (.okSymbol 3#32)) ∧
    ∃ t, step { small ones with inbox := [.launch (.request 1 0x41#8)] } = .next t ∧ t.response = none :=
  ⟨⟨_, rfl, by decide +kernel⟩, _, rfl, rfl⟩

theorem witness_OnlyBuildsAndResetsChangeTheBook :
    (Input.launch (.command 0x03#8 [.cursor 1])).rewritesBook = false ∧
    ∃ t, step { small ones with inbox := [.launch (.command 0x03#8 [.cursor 1])] } = .next t :=
  ⟨by decide, _, rfl⟩

theorem witness_EveryDecodedLaunchIsAnswered :
    ∃ s : State, s.params.nmax = 0xFFFFFFFF#32 ∧ s.params.cursorCanFail = false ∧
      s.inbox = .launch (.command 0x03#8 [.cursor 1]) :: [] ∧
      decode (.command 0x03#8 [.cursor 1]) = .ok (.decode 1) :=
  ⟨{ small ones with inbox := [.launch (.command 0x03#8 [.cursor 1])] }, rfl, rfl, rfl, by decide⟩

/-- One byte for each way R96 makes a byte illegal. -/
theorem witness_IllegalCommandByteChangesNothing :
    (∀ cmd : Byte, { small ones with inbox := [.launch (.command cmd [])] }.inbox =
      .launch (.command cmd []) :: []) ∧
    (0x00#8).extractLsb' 0 2 = 0#2 ∧ (0x81#8).extractLsb' 3 5 ≠ 0#5 ∧
    ((0x07#8).getLsbD 2 = true ∧ (0x07#8).extractLsb' 0 2 ≠ 1#2) :=
  ⟨fun _ => rfl, by decide, by decide, by decide⟩

theorem witness_DecodeOfEncodeIsIdentity :
    (Instr.buildTable 0#8 abc).wellFormed = true ∧ (Instr.buildFreq tieBreak).wellFormed = true ∧
    (Instr.peekBits 1 32).wellFormed = true := by decide

theorem witness_EncodeOfDecodeIsIdentity :
    decode (.request 1 0xA0#8) = .ok (.skip 1 32) := by decide

theorem witness_PeekBitsAnswersTheNextStreamBits : (small ones).params.cursorCanFail = false := rfl

/-- An instance whose cursors can fail. -/
def failing : State := { small ones with params := { (small ones).params with cursorCanFail := true } }

theorem witness_FailingCursorsAreRefused :
    failing.params.cursorCanFail = true ∧ failing.bookValid = true := by decide

/-- The largest count. -/
theorem witness_SkipMovesItsCursorOnly :
    Memory.wf (small ones).mem ∧ ∃ t, exec (.skip 1 32) (small ones) = .next t ∧ (t.cursor 1).pos = 32 :=
  ⟨by decide, _, rfl, by decide +kernel⟩

theorem witness_IsMsbFirstAnswersTheReportedMode : ones.Truthful := rfl

/-- Widths at both ends, in both modes. -/
theorem witness_PeeksOfDifferentWidthsAgree :
    (stream 10 0b1101000110 true).msb = true ∧ (stream 10 0b1101000110 false).msb = false ∧ 0 ≤ 32 ∧
    (stream 10 0b1101000110 true).peek 8 / 2 ^ (8 - 3) = 6 ∧ (stream 10 0b1101000110 false).peek 8 % 2 ^ 3 = 3 := by
  decide +kernel

theorem witness_PeekIsIdempotent :
    ∃ t u, exec (.peekBits 1 32) (small ones) = .next t ∧ exec (.peekBits 1 32) t = .next u := ⟨_, _, rfl, rfl⟩

/-- Lengths 1 and `P`, largest code of each; index inside the range. -/
theorem witness_FillRangeIsTheIndicesWithTheCodeOnTop :
    (∃ r : TableRow, r.length = 1 ∧ r.code.toNat < 2 ^ r.length ∧ fillStart 8 r ≤ 255 ∧
      255 < fillStart 8 r + fillCount 8 r) ∧
    (∃ r : TableRow, r.length = 8 ∧ r.code.toNat < 2 ^ r.length ∧ fillStart 8 r ≤ 165 ∧
      165 < fillStart 8 r + fillCount 8 r) :=
  ⟨⟨⟨1#32, 1, 0#32⟩, by decide⟩, ⟨0xA5#32, 8, 0#32⟩, by decide⟩

theorem witness_TableIndexIsTheValueOfTheStreamBits :
    ((small ones).cursor 1).reportsMsb = true ∧ ((small (stream 3 7 false)).cursor 1).reportsMsb = false ∧
    ((small ones).cursor 1).Truthful := ⟨rfl, rfl, rfl⟩

/-- A derived maximum, and the largest explicit one, with a short and a long code. -/
theorem witness_BuildTableMakesTheBook :
    ∃ s : State, ∃ t : TableOperand, t.count ≤ s.params.nmax.toNat ∧ PassesChecks 0 (enteredRows s.params (tableRows t)) 3 ∧
      PassesChecks 32 (enteredRows s.params (tableRows t)) 32 ∧ W1 (tableRows t) ∧ W2 s.params.P (enteredRows s.params (tableRows t)) := by
  refine ⟨small ones, .indexed [⟨2#32, 2#8⟩, ⟨7#32, 3#8⟩], by decide, ⟨by decide, ⟨by simp, fun _ => by decide⟩,
    by decide, by decide, by decide⟩, ⟨by decide, ⟨fun _ => rfl, by simp⟩, by decide, by decide, by decide⟩,
    by unfold W1; decide, ?_⟩
  intro r hr q hq j hrj hqj
  have hrows : enteredRows (small ones).params (tableRows (.indexed [⟨2#32, 2#8⟩, ⟨7#32, 3#8⟩])) =
      [⟨2#32, 2, 0#32⟩, ⟨7#32, 3, 1#32⟩] := by decide
  rw [hrows] at hr hq
  have hP : (small ones).params.P = 2 := rfl
  simp only [List.mem_cons, List.not_mem_nil, or_false] at hr hq
  rcases hr with rfl | rfl <;> rcases hq with rfl | rfl <;> simp_all [Covers]

/-- The instance with the switch of D9 on. -/
def switched : State := { bare ones with params := { (bare ones).params with lsbCodesReversed := true } }

/-- The same with the switch on: the codes "10" and "110" supplied first stream bit lowest. -/
theorem witness_BuildTableMakesTheBook_switched :
    ∃ t : TableOperand, t.count ≤ switched.params.nmax.toNat ∧ switched.params.lsbCodesReversed = true ∧
      PassesChecks 0 (enteredRows switched.params (tableRows t)) 3 ∧ W1 (tableRows t) ∧
      W2 switched.params.P (enteredRows switched.params (tableRows t)) := by
  have hrows : enteredRows switched.params (tableRows (.indexed [⟨1#32, 2#8⟩, ⟨3#32, 3#8⟩])) =
      [⟨2#32, 2, 0#32⟩, ⟨6#32, 3, 1#32⟩] := by decide
  refine ⟨.indexed [⟨1#32, 2#8⟩, ⟨3#32, 3#8⟩], by decide, rfl, ?_, by unfold W1; decide, ?_⟩
  · rw [hrows]
    exact ⟨by decide, ⟨by simp, fun _ => by decide⟩, by decide, by decide, by decide⟩
  · rw [hrows]
    intro r hr q hq j hrj hqj
    have hP : switched.params.P = 2 := rfl
    simp only [List.mem_cons, List.not_mem_nil, or_false] at hr hq
    rcases hr with rfl | rfl <;> rcases hq with rfl | rfl <;> simp_all [Covers]

/-- D9: `rev_L` of the codes supplied, for lengths at both ends of the range. -/
theorem test_entered_rows_reversed :
    enteredRows switched.params (tableRows (.named [(⟨1#32, 1#8⟩, 65#32), (⟨3#32, 3#8⟩, 66#32), (⟨1#32, 32#8⟩, 67#32)])) =
      [⟨1#32, 1, 65#32⟩, ⟨6#32, 3, 66#32⟩, ⟨0x80000000#32, 32, 67#32⟩] := by decide +kernel

/-- An instance for each position of the switch, with rows of lengths 1 and 32. -/
theorem witness_EnteredRowsAreReversedExactlyUnderTheSwitch :
    State.reset.params.lsbCodesReversed = false ∧ switched.params.lsbCodesReversed = true ∧
    ∀ i, i < 2 → ∃ r q, ([⟨1#32, 1, 5#32⟩, ⟨1#32, 32, 6#32⟩] : List TableRow)[i]? = some r ∧
      (enteredRows switched.params [⟨1#32, 1, 5#32⟩, ⟨1#32, 32, 6#32⟩])[i]? = some q ∧ r.length ≤ 32 := by
  refine ⟨rfl, rfl, fun i hi => ?_⟩
  interval_cases i
  · exact ⟨⟨1#32, 1, 5#32⟩, ⟨1#32, 1, 5#32⟩, rfl, by decide +kernel, by decide⟩
  · exact ⟨⟨1#32, 32, 6#32⟩, ⟨0x80000000#32, 32, 6#32⟩, rfl, by decide +kernel, by decide⟩

/-- A state and tables for each check of R114: no entry; a requested maximum of 33; an entry of 33 above an explicit
32; a length 0. -/
theorem witness_BuildTableChecksInOrder :
    (TableOperand.indexed []).count ≤ State.reset.params.nmax.toNat ∧ (TableOperand.indexed []).count = 0 ∧ holes.count ≤ State.reset.params.nmax.toNat ∧ 0 < holes.count ∧
    IsEffectiveMax 33 (tableRows holes) 33 ∧
    (IsEffectiveMax 32 (tableRows (.indexed [⟨0#32, 33#8⟩])) 32 ∧
      ∃ r ∈ tableRows (.indexed [⟨0#32, 33#8⟩]), 32 < r.length) ∧
    (IsEffectiveMax 0 (tableRows (.indexed [⟨0#32, 32#8⟩, ⟨0#32, 0#8⟩])) 32 ∧
      (∀ r ∈ tableRows (.indexed [⟨0#32, 32#8⟩, ⟨0#32, 0#8⟩]), r.length ≤ 32) ∧
      ∃ r ∈ tableRows (.indexed [⟨0#32, 32#8⟩, ⟨0#32, 0#8⟩]), r.length = 0) :=
  ⟨by decide, rfl, by decide, by decide, ⟨fun _ => rfl, by simp⟩, ⟨⟨fun _ => rfl, by simp⟩, by decide⟩,
    ⟨by simp, fun _ => by decide⟩, by decide, by decide⟩

/-- "0" with symbol 1 and "01" with symbol 2: both cover index 64 (V-T30). -/
def clash : TableOperand := .named [(⟨0#32, 1#8⟩, 1#32), (⟨1#32, 2#8⟩, 2#32)]

/-- An instance of capacity 1 with a table of two entries; tables that pass the checks, one that breaks W1 (V-T31) and
one that keeps W1 and breaks W2 (V-T30). -/
theorem witness_BuildTableIsRefusedWithoutMeaning :
    ({ Params.default with nmax := 1#32 } : Params).nmax.toNat < holes.count ∧
    ((TableOperand.indexed [⟨2#32, 1#8⟩]).count ≤ State.reset.params.nmax.toNat ∧
      PassesChecks 0 (enteredRows State.reset.params (tableRows (.indexed [⟨2#32, 1#8⟩]))) 1 ∧
      ¬ W1 (tableRows (.indexed [⟨2#32, 1#8⟩]))) ∧
    (clash.count ≤ State.reset.params.nmax.toNat ∧ PassesChecks 0 (enteredRows State.reset.params (tableRows clash)) 2 ∧
      W1 (tableRows clash) ∧ ¬ W2 State.reset.params.P (enteredRows State.reset.params (tableRows clash))) := by
  refine ⟨by decide, ⟨by decide, ⟨by decide, ⟨by simp, fun _ => by decide⟩, by decide, by decide, by decide⟩,
    by unfold W1; decide⟩, by decide, ⟨by decide, ⟨by simp, fun _ => by decide⟩, by decide, by decide, by decide⟩,
    by unfold W1; decide, fun h => ?_⟩
  have hclash := h ⟨0#32, 1, 1#32⟩ (by decide) ⟨1#32, 2, 2#32⟩ (by decide) 64
    (by unfold Covers; decide) (by unfold Covers; decide)
  exact absurd hclash.2 (by decide)

theorem witness_BookIsValidExactlyAfterSuccess :
    (∃ u, exec (.buildTable 0#8 holes) (bare ones) = .next u ∧ u.response = some .ok) ∧
    ∃ u, exec (.buildFreq [⟨9#32, 7#32⟩]) (small ones) = .next u ∧ u.response = some (.error .zeroLength) :=
  ⟨⟨_, rfl, by decide +kernel⟩, _, rfl, by decide +kernel⟩

theorem witness_DecodeAfterAFailedBuildFindsNoBook :
    ∃ u, exec (.buildFreq []) (small ones) = .next u ∧ u.response = some (.error .emptyAlphabet) :=
  ⟨_, rfl, by decide +kernel⟩

theorem witness_ScanSelectsTheTwoSmallest :
    (scan [⟨0, .leaf 0⟩]).first = none ∧
    ((scan [⟨5, .leaf 0⟩]).first.isSome = true ∧ (scan [⟨5, .leaf 0⟩]).second = none) ∧
    (scan [⟨2, .leaf 0⟩, ⟨2, .leaf 1⟩, ⟨1, .leaf 2⟩]).first = some ⟨2, ⟨1, .leaf 2⟩⟩ ∧
    (scan [⟨2, .leaf 0⟩, ⟨2, .leaf 1⟩, ⟨1, .leaf 2⟩]).second = some ⟨0, ⟨2, .leaf 0⟩⟩ := by decide

theorem witness_MergeStopsWithOneRoot :
    (tieBreak ≠ [] ∧ AllPositive tieBreak ∧ 5 + 1 < 2 * tieBreak.length - 1) ∧
    ∀ p ∈ [(⟨0#32, 0#32⟩ : FreqPair)], p.freq = 0#32 :=
  ⟨⟨by decide, by unfold AllPositive; decide, by decide⟩, by decide⟩

theorem witness_MergeFrequenciesStayBelowTwoToThe64 :
    tieBreak.length < 2 ^ 32 ∧ ⟨8, .node (.leaf 3) (.node (.leaf 2) (.node (.leaf 0) (.leaf 1)))⟩ ∈
      ((Work.seed tieBreak).rounds 4).nodes := by decide +kernel

theorem witness_MergeLengthsAndCodesAreBounded : ∃ r ∈ mergeRows tieBreak, r.length ≤ 32 := by decide +kernel

theorem witness_MergeLengthsSatisfyKraftEquality : 2 ≤ tieBreak.length ∧ AllPositive tieBreak :=
  ⟨by decide, by unfold AllPositive; decide⟩

theorem witness_MergeCodesArePrefixFree :
    AllPositive tieBreak ∧ (∀ r ∈ mergeRows tieBreak, r.length ≤ 32) ∧ 2 ≤ (mergeRows tieBreak).length :=
  ⟨by unfold AllPositive; decide, by decide +kernel⟩

/-- Four equal frequencies: the codes "00", "01", "10", "11" (R145 (d)). -/
def uniform : List FreqPair := [⟨0#32, 1#32⟩, ⟨1#32, 1#32⟩, ⟨2#32, 1#32⟩, ⟨3#32, 1#32⟩]

/-- With the switch of D9 on, `BUILD_FREQ` reverses the codes on their entry into `BUILD_TABLE` (R99, R141); the codes
"110", "111", "10", "0" of the source's list then break W2, since "01" and "0" cover index 1 at `P = 2`. -/
theorem test_build_freq_switched :
    after (exec (.buildFreq uniform) switched)
      (fun t => decide (t.slot.pt = [.hit 0#32 2, .hit 2#32 2, .hit 1#32 2, .hit 3#32 2])) = true ∧
    refusal (exec (.buildFreq tieBreak) switched) = some .illFormedTable := by decide +kernel

theorem uniform_entered_rows : enteredRows switched.params (mergeRows uniform) =
    [⟨0#32, 2, 0#32⟩, ⟨2#32, 2, 1#32⟩, ⟨1#32, 2, 2#32⟩, ⟨3#32, 2, 3#32⟩] := by decide +kernel

theorem tieBreak_entered_rows : enteredRows switched.params (mergeRows tieBreak) =
    [⟨3#32, 3, 0#32⟩, ⟨7#32, 3, 1#32⟩, ⟨1#32, 2, 2#32⟩, ⟨0#32, 1, 3#32⟩] := by decide +kernel

/-- An instance with the switch off and the least number of pairs, and one with it on whose reversed codes keep W2. -/
theorem witness_BuildFreqMakesTheBookOfTheMerge :
    (∃ ps : List FreqPair, ps.length ≤ State.reset.params.nmax.toNat ∧ 2 ≤ ps.length ∧ AllPositive ps ∧
      IsEffectiveMax 0 (mergeRows ps) 1 ∧ State.reset.params.lsbCodesReversed = false) ∧
    (uniform.length ≤ switched.params.nmax.toNat ∧ 2 ≤ uniform.length ∧ AllPositive uniform ∧
      IsEffectiveMax 0 (mergeRows uniform) 2 ∧ switched.params.lsbCodesReversed = true ∧
      W2 switched.params.P (enteredRows switched.params (mergeRows uniform))) := by
  refine ⟨⟨[⟨0#32, 10#32⟩, ⟨1#32, 1#32⟩], by decide, by decide, by unfold AllPositive; decide,
    ⟨by simp, fun _ => by decide +kernel⟩, rfl⟩, by decide, by decide, by unfold AllPositive; decide,
    ⟨by simp, fun _ => by decide +kernel⟩, rfl, ?_⟩
  rw [uniform_entered_rows]
  intro r hr q hq j hrj hqj
  have hP : switched.params.P = 2 := rfl
  simp only [List.mem_cons, List.not_mem_nil, or_false] at hr hq
  rcases hr with rfl | rfl | rfl | rfl <;> rcases hq with rfl | rfl | rfl | rfl <;> simp_all [Covers]

/-- A state for each position of the switch. -/
theorem witness_BuildFreqIsBuildTableOfTheMerge :
    State.reset.params.lsbCodesReversed = false ∧ switched.params.lsbCodesReversed = true ∧
    ∀ r ∈ mergeRows tieBreak, r.length < 256 := by decide +kernel

/-- With the switch off; and, with it on, codes that pass the checks and break W2. -/
theorem witness_BuildFreqStopsOnlyUnderTheSwitch :
    (tieBreak.length ≤ State.reset.params.nmax.toNat ∧ State.reset.params.lsbCodesReversed = false) ∧
    tieBreak.length ≤ switched.params.nmax.toNat ∧
    PassesChecks 0 (enteredRows switched.params (mergeRows tieBreak)) 3 ∧
    ¬ W2 switched.params.P (enteredRows switched.params (mergeRows tieBreak)) := by
  refine ⟨by decide, by decide, ?_, ?_⟩ <;> rw [tieBreak_entered_rows]
  · exact ⟨by decide, ⟨by simp, fun _ => by decide⟩, by decide, by decide, by decide⟩
  · intro h
    have hclash := h ⟨1#32, 2, 2#32⟩ (by decide) ⟨0#32, 1, 3#32⟩ (by decide) 1
      (by unfold Covers; decide) (by unfold Covers; decide)
    exact absurd hclash.2 (by decide)

/-- Fibonacci frequencies: the least input with a code above 32 bits has 34 pairs (R145 (h)). -/
def fibonacci : Nat → Nat → Nat → List FreqPair
  | 0, _, _ => []
  | n + 1, a, b => ⟨0#32, BitVec.ofNat 32 a⟩ :: fibonacci n b (a + b)

theorem witness_BuildFreqErrors :
    (fibonacci 34 1 1).length ≤ State.reset.params.nmax.toNat ∧
    (∃ r ∈ mergeRows (fibonacci 34 1 1), 32 < r.length) ∧
    ((∃ p ∈ [(⟨0#32, 0#32⟩ : FreqPair), ⟨1#32, 3#32⟩, ⟨2#32, 5#32⟩], p.freq = 0#32) ∧
      ∀ r ∈ mergeRows [⟨0#32, 0#32⟩, ⟨1#32, 3#32⟩, ⟨2#32, 5#32⟩], r.length ≤ 32) := by decide +kernel

theorem witness_BuildFreqIsRefusedAboveCapacity :
    ({ Params.default with nmax := 3#32 } : Params).nmax.toNat < tieBreak.length := by decide

theorem witness_DecodeWithoutABookAnswersNoBook : (bare ones).bookValid = false := rfl

theorem witness_DecodeHitConsumesTheEntryLength :
    (small (stream 3 0b100 true)).bookValid = true ∧ (small (stream 3 0b100 true)).params.cursorCanFail = false ∧
    Memory.wf (small (stream 3 0b100 true)).mem ∧
    (small (stream 3 0b100 true)).slot.entry ((small (stream 3 0b100 true)).decodeIndex 1) = .hit 1#32 2 := by
  decide +kernel

/-- The last bucket, and its second pair. -/
theorem witness_DecodeMissAnswersTheFirstBucketMatch :
    (small ones).bookValid = true ∧ (small ones).params.cursorCanFail = false ∧ Memory.wf (small ones).mem ∧
    (small ones).slot.entry ((small ones).decodeIndex 1) = .invalid ∧ 0 < (small ones).nbuckets ∧
    (small ones).slot.bucket 0 = [⟨6#32, 2#32⟩] ++ ⟨7#32, 3#32⟩ :: [] ∧
    (∀ q ∈ [(⟨6#32, 2#32⟩ : BucketPair)], q.code.toNat ≠ workingCode (small ones) 1 0) ∧
    (⟨7#32, 3#32⟩ : BucketPair).code.toNat = workingCode (small ones) 1 0 := by decide +kernel

theorem witness_DecodeWithoutAMatchAnswersInvalidCode :
    (holed ones).bookValid = true ∧ (holed ones).params.cursorCanFail = false ∧ Memory.wf (holed ones).mem ∧
    (holed ones).slot.entry ((holed ones).decodeIndex 1) = .invalid ∧ (holed ones).nbuckets = 1 ∧
    ∀ k, k < (holed ones).nbuckets → ∀ q ∈ (holed ones).slot.bucket k,
      q.code.toNat ≠ workingCode (holed ones) 1 k := by decide +kernel

theorem witness_DecodeWritesOnlyItsCursorPosition :
    Memory.wf (small ones).mem ∧ ∃ t, exec (.decode 1) (small ones) = .next t := ⟨by decide, _, rfl⟩

/-- Two different states that agree on what a decode reads. -/
theorem witness_DecodeReadsOnlyTheBookAndItsCursor :
    Memory.wf { small ones with mem := [(1, ones), (2, ones)], draws := 7 }.mem ∧
    Memory.wf (small ones).mem ∧
    { small ones with mem := [(1, ones), (2, ones)], draws := 7 }.params = (small ones).params ∧
    { small ones with mem := [(1, ones), (2, ones)], draws := 7 }.bookValid = (small ones).bookValid ∧
    { small ones with mem := [(1, ones), (2, ones)], draws := 7 }.slot = (small ones).slot ∧
    { small ones with mem := [(1, ones), (2, ones)], draws := 7 }.cursor 1 = (small ones).cursor 1 ∧
    ∃ t, exec (.decode 1) (small ones) = .next t := ⟨by decide, by decide, rfl, rfl, rfl, rfl, _, rfl⟩

theorem witness_DecodesOnDifferentCursorsCommute :
    (1 : CursorId) ≠ 2 ∧ Memory.wf { small ones with mem := [(1, ones), (2, ones)] }.mem ∧
    { small ones with mem := [(1, ones), (2, ones)] }.params.cursorCanFail = false := by decide

theorem witness_DecodeIsTheSameInBothBitOrders :
    Memory.wf (small ones).mem ∧ ((small ones).cursor 1).Truthful ∧
    ∃ t, exec (.decode 1) (small ones) = .next t := ⟨by decide, rfl, _, rfl⟩

/-- An incomplete prefix-free table; a stream that starts with its code "10", and one that starts with none. -/
theorem witness_DecodeFollowsAPrefixFreeTable :
    (bare ones).params.cursorCanFail = false ∧
    Memory.wf (bare ones).mem ∧ Memory.wf (bare (stream 3 0b100 true)).mem ∧
    PrefixFree (enteredRows (bare ones).params (tableRows holes)) ∧
    (∃ u, exec (.buildTable 0#8 holes) (bare (stream 3 0b100 true)) = .next u ∧ u.response = some .ok ∧
      (u.cursor 1).Truthful ∧ ∃ r ∈ enteredRows (bare ones).params (tableRows holes),
        (u.cursor 1).next r.length = r.string) ∧
    ∃ u, exec (.buildTable 0#8 holes) (bare ones) = .next u ∧ u.response = some .ok ∧
      (u.cursor 1).Truthful ∧ ∀ r ∈ enteredRows (bare ones).params (tableRows holes),
        (u.cursor 1).next r.length ≠ r.string :=
  ⟨rfl, by decide, by decide, by unfold PrefixFree; decide +kernel, ⟨_, rfl, by decide +kernel, rfl, by decide +kernel⟩, _, rfl,
    by decide +kernel, rfl, by decide +kernel⟩

/-- The same with the switch of D9 on: four codes of length 2, one of which stands next. -/
theorem witness_DecodeFollowsAPrefixFreeTable_switched :
    PrefixFree (enteredRows switched.params (mergeRows uniform)) ∧
    ∃ u, exec (.buildTable 0#8 (handOver uniform)) switched = .next u ∧ u.response = some .ok ∧
      tableRows (handOver uniform) = mergeRows uniform ∧ (u.cursor 1).Truthful ∧
      ∃ r ∈ enteredRows switched.params (mergeRows uniform), (u.cursor 1).next r.length = r.string :=
  ⟨by rw [uniform_entered_rows]; unfold PrefixFree; decide +kernel, _, rfl, by decide +kernel, by decide +kernel, rfl,
    by decide +kernel⟩

/-- At `P = 2` the source's list has codes on both paths; the stream starts with "111". The second part has the switch
of D9 on. -/
theorem witness_DecodeFollowsTheMergeCodes :
    ((bare ones).params.cursorCanFail = false ∧ Memory.wf (bare ones).mem ∧
      (bare ones).params.lsbCodesReversed = false ∧
      ∃ u, exec (.buildFreq tieBreak) (bare ones) = .next u ∧ u.response = some .ok ∧ (u.cursor 1).Truthful ∧
        ∃ r ∈ enteredRows (bare ones).params (mergeRows tieBreak),
          (u.cursor 1).next r.length = r.string ∧ r.length = 3) ∧
    (switched.params.cursorCanFail = false ∧ Memory.wf switched.mem ∧ switched.params.lsbCodesReversed = true ∧
      PrefixFree (enteredRows switched.params (mergeRows uniform)) ∧
      ∃ u, exec (.buildFreq uniform) switched = .next u ∧ u.response = some .ok ∧ (u.cursor 1).Truthful ∧
        ∃ r ∈ enteredRows switched.params (mergeRows uniform), (u.cursor 1).next r.length = r.string) :=
  ⟨⟨rfl, by decide, rfl, _, rfl, by decide +kernel, rfl, by decide +kernel⟩, rfl, by decide, rfl,
    by rw [uniform_entered_rows]; unfold PrefixFree; decide +kernel, _, rfl, by decide +kernel, rfl, by decide +kernel⟩

theorem witness_FreqBookDecodesEveryStream :
    ((bare ones).params.cursorCanFail = false ∧ (bare ones).params.lsbCodesReversed = false ∧
      ∃ u, exec (.buildFreq tieBreak) (bare ones) = .next u ∧ u.response = some .ok) ∧
    (switched.params.cursorCanFail = false ∧ PrefixFree (enteredRows switched.params (mergeRows uniform)) ∧
      ∃ u, exec (.buildFreq uniform) switched = .next u ∧ u.response = some .ok) :=
  ⟨⟨rfl, rfl, _, rfl, by decide +kernel⟩, rfl,
    by rw [uniform_entered_rows]; unfold PrefixFree; decide +kernel, _, rfl, by decide +kernel⟩

/-- Decodes abandoned on a miss before the first skip, after the `P` bits and after the last request, and on a hit after
its skip of one bit; an abandoned build. -/
theorem witness_ResetInsideACommandAbandonsIt :
    Memory.wf (small ones).mem ∧ (small ones).params.cursorCanFail = false ∧
    (∀ e ∈ [(2, 0), (4, 2), (5, 3)],
      ∃ t, step { small ones with inbox := [.resetDuring 0x03#8 [.cursor 1] e.1] } = .next t ∧
        (t.cursor 1).pos = e.2) ∧
    (∃ t, step { small (stream 2 0 true) with inbox := [.resetDuring 0x03#8 [.cursor 1] 3] } = .next t ∧
      (t.cursor 1).pos = 1) ∧
    ∃ t, step { small ones with inbox := [.resetDuring 0x02#8 [.word 0#32] 0] } = .next t := by
  refine ⟨by decide, rfl, fun e he => ⟨_, rfl, ?_⟩, ⟨_, rfl, ?_⟩, _, rfl⟩
  · simp only [List.mem_cons, List.not_mem_nil, or_false] at he
    rcases he with rfl | rfl | rfl <;> decide +kernel
  · decide +kernel

/-- An inbox for each clause. -/
theorem witness_HostPlacesAndRepositionsCursors :
    Memory.wf (small ones).mem ∧
    { small ones with inbox := [.place 1 ones] }.inbox = .place 1 ones :: [] ∧
    { small ones with inbox := [.seek 1 0] }.inbox = .seek 1 0 :: [] := ⟨by decide, rfl, rfl⟩

theorem witness_BrokenLaunchesAreRefused :
    { small ones with inbox := [.brokenLaunch .sharedCursor (.command 0x03#8 [.cursor 1])] }.inbox =
      .brokenLaunch .sharedCursor (.command 0x03#8 [.cursor 1]) :: [] := rfl

/-- A reserved kind, the least reserved count, and a counted `IS_MSB_FIRST`. -/
theorem witness_MalformedTransactionsAreRefused :
    (∀ tr, { small ones with inbox := [.launch tr] }.inbox = .launch tr :: []) ∧
    decode (.command 0x03#8 [.word 0#32]) = .error .malformedOperands ∧ (0xC0#8).extractLsb' 6 2 = 3#2 ∧
    32 < ((0x61#8).extractLsb' 0 6).toNat ∧
    ((0x01#8).extractLsb' 6 2 = 0#2 ∧ ((0x01#8).extractLsb' 0 6).toNat ≠ 0) :=
  ⟨fun _ => rfl, by decide, by decide, by decide, by decide⟩

end Sys2Proof.Machine.Tests
end

section
/-!
The family 00_scope.md: the parameters (R5, R8, R21), the switch of D9 and the capacity NMAX (R8).
-/

namespace Sys2Proof.Machine

/-! ## Nothing writes the parameters (R21)

One lemma for each layer of the step: build, decode, instruction, transaction, input, step. -/

/-- Failing or not, a build keeps the frame of R110, R119 and R130. -/
theorem State.build_frame (s : State) (maxLength : Nat) (rows : List TableRow) :
    BuildFrame s (s.build maxLength rows) := by
  rcases s.build_cases maxLength rows with ⟨e, -, hb⟩ | ⟨-, hb⟩ <;> rw [hb] <;> exact ⟨rfl, rfl, rfl, rfl⟩

@[simp] theorem State.build_params (s : State) (maxLength : Nat) (rows : List TableRow) :
    (s.build maxLength rows).params = s.params :=
  (s.build_frame maxLength rows).1

@[simp] theorem State.opened_params (s : State) (c : CursorId) (n : Nat) : (s.opened c n).params = s.params := rfl

@[simp] theorem State.pull_params (s : State) (c : CursorId) (n : Nat) : (s.pull c n).params = s.params :=
  (State.pull_frame c n s).1

/-- A decode writes no parameter, whether it hits, matches in a bucket, or finds nothing. -/
@[simp] theorem State.decodeSymbol_params (s : State) (c : CursorId) : (s.decodeSymbol c).params = s.params := by
  rcases s.decodeSymbol_cases c with ⟨sym, len, -, h⟩ | ⟨-, ⟨n, sym, -, h⟩ | h⟩ <;> simp [h]

theorem exec_params {i : Instr} {s u : State} (h : exec i s = .next u) : u.params = s.params := by
  rcases exec_next h with ⟨maxLength, t, -, rfl⟩ | ⟨ps, -, rfl⟩ | ⟨c, -, -, rfl⟩ | ⟨c, -, -, rfl⟩ | ⟨c, -, rfl⟩ |
    ⟨c, n, -, rfl⟩ | ⟨c, n, -, rfl⟩ <;> simp

theorem runLaunch_params {t : Transaction} {s u : State} (h : runLaunch t s = .next u) : u.params = s.params := by
  rcases runLaunch_next h with ⟨i, -, hi⟩ | ⟨-, rfl⟩
  · exact exec_params hi
  · rfl

theorem State.foldl_reissue_params (s : State) (issued : List Exchange) :
    (issued.foldl State.reissue s).params = s.params := by
  induction issued generalizing s with
  | nil => rfl
  | cons e es ih => exact (ih (s.reissue e)).trans (s.reissue_frame e).1

@[simp] theorem State.abandon_params (s : State) (issued : List Exchange) :
    (s.abandon issued).params = s.params :=
  s.foldl_reissue_params issued

/-- A reset inside a command goes on exactly when the command does, to the state before it with the first `k` of the
command's requests issued, then reset (R201). -/
theorem runResetDuring_next {cmd : Byte} {ops : List Operand} {k : Nat} {s u : State} :
    runResetDuring cmd ops k s = .next u ↔
      ∃ t, runLaunch (.command cmd ops) s = .next t ∧ u = s.abandon (t.requests.take k) := by
  unfold runResetDuring
  cases runLaunch (.command cmd ops) s <;> simp [eq_comm]

theorem runInput_params {input : Input} {s u : State} (h : runInput s input = .next u) : u.params = s.params := by
  cases input with
  | launch t => exact runLaunch_params h
  | reset => cases h; rfl
  | resetDuring cmd ops k =>
    obtain ⟨t, -, rfl⟩ := runResetDuring_next.1 h
    exact s.abandon_params _
  | place c cur => cases h; rfl
  | seek c pos => cases h; rfl
  | brokenLaunch hz t => cases h

theorem step_params {s t : State} (h : step s = .next t) : t.params = s.params := by
  cases hin : s.inbox with
  | nil =>
    rw [step_idle hin] at h
    cases h
    rfl
  | cons input rest =>
    rw [step_cons hin] at h
    exact (runInput_params h).trans s.accept_params

/-- Settles O4: the parameters survive every layer of the step, and the range of `P` comes with its type (R5). -/
theorem stepKeepsInstanceConstants : Obligations.StepKeepsInstanceConstants :=
  ⟨rfl, fun _ t h => ⟨step_params h, t.params.P_pos, t.params.P_le⟩⟩

/-! ## The switch of D9 -/

/-- `rev_n` bit by bit (R11). -/
theorem testBit_rev (n v k : Nat) : (rev n v).testBit k = (decide (k < n) && v.testBit (n - 1 - k)) := by
  induction n generalizing v k with
  | zero => simp [rev]
  | succ n ih =>
    rw [rev, Nat.mul_comm, Nat.testBit_two_pow_mul_add _ (rev_lt n (v / 2))]
    rcases Nat.lt_trichotomy k n with hlt | rfl | hgt
    · have hidx : n - k = n - 1 - k + 1 := by omega
      simp [hlt, Nat.lt_succ_of_lt hlt, ih, hidx, Nat.testBit_add_one]
    · simp
    · have hbit : (v % 2).testBit (k - n) = false :=
        Nat.testBit_lt_two_pow <| (Nat.mod_lt v Nat.two_pos).trans_le <|
          Nat.le_self_pow (Nat.sub_ne_zero_of_lt hgt) 2
      simp [hgt.not_gt, hbit, Nat.not_lt.2 hgt]

/-- The code of a reversed row is `rev_L` of the code supplied, wherever that is a code at all (R11, D9). -/
theorem TableRow.reversed_code_getLsbD {r : TableRow} (hr : r.length ≤ 32) (k : Nat) :
    r.reversed.code.getLsbD k = (decide (k < r.length) && r.code.getLsbD (r.length - 1 - k)) := by
  rw [TableRow.reversed, BitVec.getLsbD_ofNat, testBit_rev, BitVec.testBit_toNat]
  by_cases hk : k < r.length
  · simp [hk, hk.trans_le hr]
  · simp [hk]

/-- Settles O59: off, entry is the identity; on, it reverses row by row. -/
theorem enteredRowsAreReversedExactlyUnderTheSwitch :
    Obligations.EnteredRowsAreReversedExactlyUnderTheSwitch := by
  refine fun p rows => ⟨fun hoff => enteredRows_off hoff rows, fun hon => ?_⟩
  rw [enteredRows_on hon]
  refine ⟨List.length_map _, fun i r q hr hq => ?_⟩
  obtain rfl : r.reversed = q := by simpa [hr] using hq
  exact ⟨r.reversed_length, r.reversed_symbol, TableRow.reversed_code_getLsbD⟩

/-! ## The capacity -/

/-- More pairs than `NMAX` are refused before the merge is looked at (R8). -/
theorem execBuildFreq_overCapacity {s : State} {ps : List FreqPair} (h : s.params.nmax.toNat < ps.length) :
    execBuildFreq ps s = .refused .overCapacity :=
  if_pos h

/-- Settles O41: the dispatch leads to `execBuildFreq`, which asks the capacity first. -/
theorem buildFreqIsRefusedAboveCapacity : Obligations.BuildFreqIsRefusedAboveCapacity :=
  fun _ _ => execBuildFreq_overCapacity

end Sys2Proof.Machine
end

section
/-!
The family 10_state.md: the invariant (R22 to R26, R80), what can change the book (R24, R27, R119), and what a `DECODE`
(R32, R159) and a reset (R36, R200) leave alone.
-/

namespace Sys2Proof.Machine

/-! ## The engine's own state (R27) -/

theorem SameEngine.refl (s : State) : SameEngine s s := ⟨rfl, rfl, rfl, rfl⟩

/-- Every decode is its opening requests, some one-bit pulls (none on a hit), and a response (R161). -/
theorem State.decodeSymbol_eq_pull (s : State) (c : CursorId) :
    ∃ n k r, s.decodeSymbol c = ((s.opened c n).pull c k).respond r := by
  rcases s.decodeSymbol_cases c with ⟨sym, len, -, h⟩ | ⟨-, ⟨n, sym, -, h⟩ | h⟩
  · exact ⟨len, 0, _, h⟩
  · exact ⟨_, n + 1, _, h⟩
  · exact ⟨_, _, _, h⟩

theorem State.pull_sameEngine (c : CursorId) (n : Nat) (s : State) : SameEngine s (s.pull c n) := by
  obtain ⟨hparams, hvalid, hslot, hdraws, -, -⟩ := State.pull_frame c n s
  exact ⟨hparams, hvalid, hslot, hdraws⟩

theorem State.decodeSymbol_sameEngine (s : State) (c : CursorId) : SameEngine s (s.decodeSymbol c) := by
  obtain ⟨n, k, r, h⟩ := s.decodeSymbol_eq_pull c
  rw [h]
  exact State.pull_sameEngine c k (s.opened c n)

@[simp] theorem State.decodeSymbol_inbox (s : State) (c : CursorId) : (s.decodeSymbol c).inbox = s.inbox := by
  obtain ⟨n, k, r, h⟩ := s.decodeSymbol_eq_pull c
  obtain ⟨-, -, -, -, hinbox, -⟩ := State.pull_frame c k (s.opened c n)
  rw [h]
  exact hinbox

/-- The two commands that write the book (R27). -/
def IsBuild (i : Instr) : Prop :=
  (∃ maxLength t, i = .buildTable maxLength t) ∨ (∃ ps, i = .buildFreq ps)

/-- A build that goes on populates from rows that break neither W1 nor W2 when they pass the checks (R99, R112). -/
theorem exec_build_next {i : Instr} {s u : State} (hi : IsBuild i) (h : exec i s = .next u) :
    ∃ maxLength rows, (tableError maxLength rows = none → wellFormedRows s.params rows = true) ∧
      u = s.build maxLength (enteredRows s.params rows) := by
  rcases hi with ⟨maxLength, t, rfl⟩ | ⟨ps, rfl⟩
  · exact ⟨_, _, (execBuildTable_next h).2⟩
  · exact ⟨_, _, (execBuildFreq_next h).2⟩

theorem exec_sameEngine {i : Instr} {s u : State} (hi : ¬ IsBuild i) (h : exec i s = .next u) : SameEngine s u := by
  rcases exec_next h with ⟨maxLength, t, rfl, -⟩ | ⟨ps, rfl, -⟩ | ⟨c, -, -, rfl⟩ | ⟨c, -, -, rfl⟩ | ⟨c, -, rfl⟩ |
    ⟨c, n, -, rfl⟩ | ⟨c, n, -, rfl⟩
  · exact absurd (.inl ⟨maxLength, t, rfl⟩) hi
  · exact absurd (.inr ⟨ps, rfl⟩) hi
  · exact .refl s
  · exact s.decodeSymbol_sameEngine c
  · exact .refl s
  · exact .refl s
  · exact .refl s

theorem rewritesBook_launch_of_isBuild {t : Transaction} {i : Instr} (ht : decode t = .ok i) (hi : IsBuild i) :
    (Input.launch t).rewritesBook = true := by
  rcases hi with ⟨maxLength, tab, rfl⟩ | ⟨ps, rfl⟩ <;> simp [Input.rewritesBook, ht]

theorem runLaunch_sameEngine {t : Transaction} {s u : State} (ht : (Input.launch t).rewritesBook = false)
    (h : runLaunch t s = .next u) : SameEngine s u := by
  rcases runLaunch_next h with ⟨i, hi, hu⟩ | ⟨-, rfl⟩
  · refine exec_sameEngine (fun hb => ?_) hu
    rw [rewritesBook_launch_of_isBuild hi hb] at ht
    cases ht
  · exact .refl s

theorem runInput_sameEngine {input : Input} {s u : State} (hin : input.rewritesBook = false)
    (h : runInput s input = .next u) : SameEngine s u := by
  cases input with
  | launch t => exact runLaunch_sameEngine hin h
  | reset => cases hin
  | resetDuring cmd ops k => cases hin
  | place c cur => cases h; exact .refl s
  | seek c pos => cases h; exact .refl s
  | brokenLaunch hz t => cases h

/-- Settles O8: acceptance leaves the engine alone, and so does every input that is no build and no reset. -/
theorem onlyBuildsAndResetsChangeTheBook : Obligations.OnlyBuildsAndResetsChangeTheBook := by
  intro s t input rest hs hin h
  rw [step_cons hs] at h
  exact runInput_sameEngine (s := s.accept) hin h

/-! ## The answer of a build -/

/-- Only three errors lose the book (R178). -/
theorem EngineError.isBuildError_iff {e : EngineError} :
    e.isBuildError = true ↔ e = .emptyAlphabet ∨ e = .lengthOverflow ∨ e = .zeroLength := by
  cases e <;> decide

/-- Settles O30: a build either fails one of its checks and loses the book, or installs one (R118, R119). -/
theorem bookIsValidExactlyAfterSuccess : Obligations.BookIsValidExactlyAfterSuccess := by
  intro s u i hi h
  obtain ⟨maxLength, rows, -, rfl⟩ := exec_build_next hi h
  refine ⟨?_, s.build_frame maxLength _⟩
  rcases s.build_cases maxLength (enteredRows s.params rows) with ⟨e, he, hb⟩ | ⟨-, hb⟩
  · have herr := EngineError.isBuildError_iff.1 (tableError_isBuildError he)
    rw [hb]
    exact .inr ⟨by simpa using herr, rfl⟩
  · rw [hb]
    exact .inl ⟨rfl, rfl⟩

/-! ## What a decode moves -/

theorem OnlyMoves.refl (c : CursorId) (s : State) : OnlyMoves c 0 s s := ⟨rfl, fun _ _ => rfl⟩

theorem OnlyMoves.trans {c : CursorId} {m n : Nat} {s t u : State} (h : OnlyMoves c m s t) (h' : OnlyMoves c n t u) :
    OnlyMoves c (m + n) s u := by
  obtain ⟨hsame, hother⟩ := h
  obtain ⟨hsame', hother'⟩ := h'
  exact ⟨by rw [hsame', hsame, Cursor.advance_advance], fun g hg => (hother' g hg).trans (hother g hg)⟩

theorem State.opened_onlyMoves {s : State} (hwf : Memory.wf s.mem) (c : CursorId) (n : Nat) :
    OnlyMoves c n s (s.opened c n) :=
  ⟨State.skip_cursor_same ((s.askMsbFirst c).peek c s.params.P) hwf c n,
    fun _ hg => State.skip_cursor_other ((s.askMsbFirst c).peek c s.params.P) hg n⟩

theorem State.wf_opened {s : State} (hwf : Memory.wf s.mem) (c : CursorId) (n : Nat) : Memory.wf (s.opened c n).mem :=
  s.wf_skip hwf c n

theorem State.pull_onlyMoves {s : State} (hwf : Memory.wf s.mem) (c : CursorId) (n : Nat) :
    OnlyMoves c n s (s.pull c n) :=
  ⟨State.pull_cursor_same c n s hwf, fun _ hg => State.pull_cursor_other c n s hg⟩

theorem State.decodeSymbol_onlyMoves {s : State} (hwf : Memory.wf s.mem) (c : CursorId) :
    ∃ n, OnlyMoves c n s (s.decodeSymbol c) := by
  obtain ⟨n, k, r, h⟩ := s.decodeSymbol_eq_pull c
  rw [h]
  exact ⟨n + k, (s.opened_onlyMoves hwf c n).trans (State.pull_onlyMoves (s.wf_opened hwf c n) c k)⟩

/-- Settles O47: without a book a decode touches nothing; with one it issues requests to its own cursor. -/
theorem decodeWritesOnlyItsCursorPosition : Obligations.DecodeWritesOnlyItsCursorPosition := by
  intro s t c hwf h
  rcases execDecode_next h with ⟨-, rfl⟩ | ⟨-, -, rfl⟩
  · exact ⟨.refl s, rfl, 0, .refl c s⟩
  · exact ⟨s.decodeSymbol_sameEngine c, s.decodeSymbol_inbox c, s.decodeSymbol_onlyMoves hwf c⟩

/-! ## The cursors stay in canonical form -/

theorem State.wf_decodeSymbol {s : State} (hwf : Memory.wf s.mem) (c : CursorId) :
    Memory.wf (s.decodeSymbol c).mem := by
  obtain ⟨n, k, r, h⟩ := s.decodeSymbol_eq_pull c
  rw [h]
  exact State.wf_pull c k _ (s.wf_opened hwf c n)

theorem State.wf_foldl_reissue {s : State} (hwf : Memory.wf s.mem) (issued : List Exchange) :
    Memory.wf (issued.foldl State.reissue s).mem := by
  induction issued generalizing s with
  | nil => exact hwf
  | cons e es ih => exact ih (s.wf_reissue hwf e)

@[simp] theorem State.build_mem (s : State) (maxLength : Nat) (rows : List TableRow) :
    (s.build maxLength rows).mem = s.mem := by
  obtain ⟨-, hmem, -, -⟩ := s.build_frame maxLength rows
  exact hmem

theorem exec_wf {i : Instr} {s u : State} (hwf : Memory.wf s.mem) (h : exec i s = .next u) : Memory.wf u.mem := by
  rcases exec_next h with ⟨maxLength, t, -, rfl⟩ | ⟨ps, -, rfl⟩ | ⟨c, -, -, rfl⟩ | ⟨c, -, -, rfl⟩ | ⟨c, -, rfl⟩ |
    ⟨c, n, -, rfl⟩ | ⟨c, n, -, rfl⟩
  · rwa [State.build_mem]
  · rwa [State.build_mem]
  · exact hwf
  · exact State.wf_decodeSymbol hwf c
  · exact hwf
  · exact hwf
  · exact s.wf_skip hwf c n.val

/-! ## Population makes a sound book (R22, R23, R115 to R118) -/

@[simp] theorem CodeBook.entry_empty (P ml j : Nat) : (CodeBook.empty P ml).entry j = .invalid := by
  simp [CodeBook.empty, CodeBook.entry]

@[simp] theorem CodeBook.bucket_empty (P ml i : Nat) : (CodeBook.empty P ml).bucket i = [] := by
  simp [CodeBook.empty, CodeBook.bucket]

/-- An entry after a row is recorded is the row's, where the row is short enough for the table, or the one of before
(R116). -/
theorem CodeBook.entry_addRow_cases (P : Nat) (b : CodeBook) (r : TableRow) (j : Nat) :
    (r.length ≤ P ∧ (b.addRow P r).entry j = .hit r.symbol r.length) ∨ (b.addRow P r).entry j = b.entry j := by
  unfold CodeBook.addRow
  split
  next hr =>
    simp only [CodeBook.entry, List.getD_eq_getElem?_getD, getElem?_fillRange]
    cases b.pt[j]? with
    | none => exact .inr rfl
    | some x =>
      simp only [Option.map_some, Option.getD_some]
      split
      · exact .inl ⟨hr, rfl⟩
      · exact .inr rfl
  next => exact .inr rfl

/-- A pair of a bucket after a row is recorded is the row's, in the bucket of its length, or one of before (R117). -/
theorem CodeBook.mem_bucket_addRow {P : Nat} {b : CodeBook} {r : TableRow} {i : Nat} {p : BucketPair}
    (hp : p ∈ (b.addRow P r).bucket i) : (r.length = P + 1 + i ∧ p.code = r.code) ∨ p ∈ b.bucket i := by
  unfold CodeBook.addRow at hp
  split at hp
  · exact .inr hp
  next hr =>
    simp only [CodeBook.bucket, List.getD_eq_getElem?_getD, List.getElem?_modify] at hp ⊢
    cases hb : b.bk[i]? with
    | none => simp [hb] at hp
    | some ps =>
      by_cases hi : bucketNumber P r.length = i
      · have hlen : r.length = P + 1 + i := by unfold bucketNumber at hi; omega
        have hps : p ∈ ps ∨ p = { code := r.code, symbol := r.symbol } := by simpa [hb, hi] using hp
        rcases hps with hp | rfl
        · exact .inr hp
        · exact .inl ⟨hlen, rfl⟩
      · exact .inr (by simpa [hb, hi] using hp)

theorem CodeBook.empty_sound {P ml : Nat} (hpos : 1 ≤ ml) (hle : ml ≤ lmax) : (CodeBook.empty P ml).Sound P where
  maxLen_pos := hpos
  maxLen_le := hle
  bk_length := List.length_replicate
  entry_length j sym len h := by simp at h
  pair_code i p hp := by simp at hp

/-- Recording a row of legal length that meets W1 keeps a book sound. -/
theorem CodeBook.Sound.addRow {P : Nat} {b : CodeBook} (hb : b.Sound P) {r : TableRow} (hpos : r.length ≠ 0)
    (hle : r.length ≤ b.maxLen) (hfit : r.code.toNat < 2 ^ r.length) : (b.addRow P r).Sound P where
  maxLen_pos := by simpa using hb.maxLen_pos
  maxLen_le := by simpa using hb.maxLen_le
  bk_length := by simpa using hb.bk_length
  entry_length j sym len h := by
    rw [addRow_maxLen]
    rcases b.entry_addRow_cases P r j with ⟨hP, hj⟩ | hj
    · obtain ⟨-, rfl⟩ := PrefixEntry.hit.inj (hj.symm.trans h)
      exact ⟨Nat.one_le_iff_ne_zero.2 hpos, hP, hle⟩
    · exact hb.entry_length j sym len (hj.symm.trans h)
  pair_code i p hp := by
    rcases CodeBook.mem_bucket_addRow hp with ⟨hlen, hcode⟩ | hp
    · rwa [hcode, ← hlen]
    · exact hb.pair_code i p hp

/-- Population keeps a book sound when every row may be recorded in it. -/
theorem CodeBook.Sound.foldl_addRow {P : Nat} {b : CodeBook} (hb : b.Sound P) {rows : List TableRow}
    (hrows : ∀ r ∈ rows, r.length ≠ 0 ∧ r.length ≤ b.maxLen ∧ r.code.toNat < 2 ^ r.length) :
    (rows.foldl (CodeBook.addRow P) b).Sound P := by
  induction rows generalizing b with
  | nil => exact hb
  | cons r rows ih =>
    obtain ⟨⟨hpos, hle, hfit⟩, hrest⟩ := List.forall_mem_cons.1 hrows
    exact ih (hb.addRow hpos hle hfit) (by simpa using hrest)

/-- What the checks of R114 leave. -/
theorem tableError_eq_none {maxLength : Nat} {rows : List TableRow} :
    tableError maxLength rows = none ↔ rows ≠ [] ∧ effectiveMax maxLength rows ≤ lmax ∧
      (∀ r ∈ rows, r.length ≤ effectiveMax maxLength rows) ∧ ∀ r ∈ rows, r.length ≠ 0 := by
  simp [tableError, ite_eq_iff]

/-- The book of rows that pass the checks and meet W1 is sound. -/
theorem populate_sound {P maxLength : Nat} {rows : List TableRow} (h : tableError maxLength rows = none)
    (hfit : ∀ r ∈ rows, r.code.toNat < 2 ^ r.length) : (populate P (effectiveMax maxLength rows) rows).Sound P := by
  obtain ⟨hne, hmax, hle, hpos⟩ := tableError_eq_none.1 h
  obtain ⟨r, hr⟩ := List.exists_mem_of_ne_nil rows hne
  have hml : 1 ≤ effectiveMax maxLength rows := (Nat.pos_of_ne_zero (hpos r hr)).trans_le (hle r hr)
  exact (CodeBook.empty_sound hml hmax).foldl_addRow fun r hr => ⟨hpos r hr, hle r hr, hfit r hr⟩

/-- `rev_L` of a code lies in `L` bits (R11). -/
theorem TableRow.reversed_code_lt (r : TableRow) : r.reversed.code.toNat < 2 ^ r.length := by
  rw [TableRow.reversed, BitVec.toNat_ofNat]
  exact (Nat.mod_le _ _).trans_lt (rev_lt _ _)

/-- Entries that meet W1 as supplied meet it as entered: reversal keeps a code within its length (R112, D9). -/
theorem code_lt_of_wellFormedRows {p : Params} {rows : List TableRow} (h : wellFormedRows p rows = true) :
    ∀ r ∈ enteredRows p rows, r.code.toNat < 2 ^ r.length := by
  cases hrev : p.lsbCodesReversed with
  | false =>
    simp only [wellFormedRows, Bool.and_eq_true, List.all_eq_true, TableRow.fits, decide_eq_true_eq] at h
    rw [enteredRows_off hrev]
    exact h.1
  | true =>
    rw [enteredRows_on hrev, List.forall_mem_map]
    exact fun r _ => r.reversed_code_lt

/-! ## The invariant -/

/-- The invariant survives whatever leaves the engine alone and the cursors canonical. -/
theorem State.Inv.of_sameEngine {s t : State} (hs : s.Inv) (h : SameEngine s t) (hwf : Memory.wf t.mem) : t.Inv := by
  obtain ⟨hparams, hvalid, hslot, -⟩ := h
  exact ⟨hwf, by rw [hslot, hparams]; exact hs.pt_length, by rw [hslot, hparams, hvalid]; exact hs.book⟩

/-- Without a book the invariant asks nothing of the unspecified contents but their size (R22, R119). -/
theorem State.loseBook_inv {s : State} (hwf : Memory.wf s.mem) : s.loseBook.Inv where
  mem_wf := hwf
  pt_length := stale_pt_length s.params.P s.draws
  book h := by cases h

/-- A build keeps the invariant: it loses the book, or populates a sound one (R118, R119). -/
theorem State.Inv.build {s : State} (hs : s.Inv) {maxLength : Nat} {rows : List TableRow}
    (hfit : tableError maxLength rows = none → ∀ r ∈ rows, r.code.toNat < 2 ^ r.length) :
    (s.build maxLength rows).Inv := by
  rcases s.build_cases maxLength rows with ⟨e, -, hb⟩ | ⟨hok, hb⟩ <;> rw [hb]
  · exact (State.loseBook_inv hs.mem_wf).of_sameEngine (.refl _) hs.mem_wf
  · exact ⟨hs.mem_wf, populate_pt_length _ _ _, fun _ => populate_sound hok (hfit hok)⟩

theorem exec_inv {i : Instr} {s u : State} (hs : s.Inv) (h : exec i s = .next u) : u.Inv := by
  by_cases hi : IsBuild i
  · obtain ⟨maxLength, rows, hwell, rfl⟩ := exec_build_next hi h
    refine hs.build fun hok => code_lt_of_wellFormedRows (hwell ?_)
    rwa [tableError_enteredRows] at hok
  · exact hs.of_sameEngine (exec_sameEngine hi h) (exec_wf hs.mem_wf h)

theorem runLaunch_inv {t : Transaction} {s u : State} (hs : s.Inv) (h : runLaunch t s = .next u) : u.Inv := by
  rcases runLaunch_next h with ⟨i, -, hu⟩ | ⟨-, rfl⟩
  · exact exec_inv hs hu
  · exact hs.of_sameEngine (.refl s) hs.mem_wf

/-- After a reset event there is no book, so the invariant is about the cursors (R36). -/
theorem State.resetEvent_inv {s : State} (hwf : Memory.wf s.mem) : s.resetEvent.Inv :=
  (State.loseBook_inv hwf).of_sameEngine (.refl _) hwf

theorem runInput_inv {input : Input} {s u : State} (hs : s.Inv) (h : runInput s input = .next u) : u.Inv := by
  cases input with
  | launch t => exact runLaunch_inv hs h
  | reset => cases h; exact State.resetEvent_inv hs.mem_wf
  | resetDuring cmd ops k =>
    obtain ⟨t, -, rfl⟩ := runResetDuring_next.1 h
    exact State.resetEvent_inv (State.wf_foldl_reissue hs.mem_wf _)
  | place c cur => cases h; exact hs.of_sameEngine (.refl s) (s.wf_setCursor hs.mem_wf c cur)
  | seek c pos => cases h; exact hs.of_sameEngine (.refl s) (s.wf_setCursor hs.mem_wf c _)
  | brokenLaunch hz t => cases h

/-- Settles O3: acceptance keeps the invariant, and so does every input. -/
theorem stepKeepsInvariant : Obligations.StepKeepsInvariant := by
  intro s t hs h
  cases hin : s.inbox with
  | nil =>
    rw [step_idle hin] at h
    cases h
    exact hs
  | cons input rest =>
    rw [step_cons hin] at h
    exact runInput_inv (s := s.accept) (hs.of_sameEngine (.refl s) hs.mem_wf) h

/-! ## The reset event -/

/-- Settles O1: a reset event always goes on, and loses the book alone (R36, R200, R202). -/
theorem resetEventLeavesNoBookAndKeepsCursors : Obligations.ResetEventLeavesNoBookAndKeepsCursors := by
  intro s rest hs
  exact ⟨s.accept.resetEvent, step_cons hs, rfl, rfl, rfl, by simp [hs], rfl⟩

end Sys2Proof.Machine
end

section
/-!
The family 20_memory.md: the order of inputs (R60, R61, R64), the cursor requests (R50 to R56), and what a `DECODE` reads
(R62).
-/

namespace Sys2Proof.Machine

/-! ## States with the same engine -/

theorem SameEngine.symm {s t : State} (h : SameEngine s t) : SameEngine t s := by
  obtain ⟨hparams, hvalid, hslot, hdraws⟩ := h
  exact ⟨hparams.symm, hvalid.symm, hslot.symm, hdraws.symm⟩

theorem SameEngine.trans {s t u : State} (h : SameEngine s t) (h' : SameEngine t u) : SameEngine s u := by
  obtain ⟨hparams, hvalid, hslot, hdraws⟩ := h
  obtain ⟨hparams', hvalid', hslot', hdraws'⟩ := h'
  exact ⟨hparams'.trans hparams, hvalid'.trans hvalid, hslot'.trans hslot, hdraws'.trans hdraws⟩

/-! ## What a decode reads (R62)

Two states in the same view of a cursor run one script on it: the same skip, the same number of one-bit pulls, the same
response. -/

/-- A decode of `c` cannot tell the two states apart: they are in canonical form and differ at most in the other cursors,
the inbox, the response, the requests and the draws. -/
structure SameView (c : CursorId) (s s' : State) : Prop where
  wf : Memory.wf s.mem
  wf' : Memory.wf s'.mem
  params : s'.params = s.params
  bookValid : s'.bookValid = s.bookValid
  slot : s'.slot = s.slot
  cursor : s'.cursor c = s.cursor c

theorem SameView.skip {c : CursorId} {s s' : State} (h : SameView c s s') (n : Nat) :
    SameView c (s.skip c n) (s'.skip c n) where
  wf := s.wf_skip h.wf c n
  wf' := s'.wf_skip h.wf' c n
  params := h.params
  bookValid := h.bookValid
  slot := h.slot
  cursor := by rw [s.skip_cursor_same h.wf, s'.skip_cursor_same h.wf', h.cursor]

/-- Recording requests, the same or not, does not change the view. -/
theorem SameView.record {c : CursorId} {s s' : State} (h : SameView c s s') (e e' : Exchange) :
    SameView c (s.record e) (s'.record e') :=
  ⟨h.wf, h.wf', h.params, h.bookValid, h.slot, h.cursor⟩

theorem SameView.opened {c : CursorId} {s s' : State} (h : SameView c s s') (n : Nat) :
    SameView c (s.opened c n) (s'.opened c n) :=
  ((h.record _ _).record _ _).skip n

theorem SameView.decodeIndex_eq {c : CursorId} {s s' : State} (h : SameView c s s') :
    s'.decodeIndex c = s.decodeIndex c := by
  rw [State.decodeIndex, State.decodeIndex, h.params, h.cursor]

/-- The bucket scan pulls equally many bits and answers alike. -/
theorem SameView.scanBuckets_eq_pull {c : CursorId} {s s' : State} (h : SameView c s s') (k i w : Nat) :
    ∃ n r, scanBuckets c k i w s = (s.pull c n).respond r ∧
      scanBuckets c k i w s' = (s'.pull c n).respond r := by
  induction k generalizing i w s s' with
  | zero => exact ⟨0, _, s.raise_other rfl, s'.raise_other rfl⟩
  | succ k ih =>
    simp only [scanBuckets, h.slot, h.cursor]
    cases findSymbol (extendCode w ((s.cursor c).peek 1)) (s.slot.bucket i) with
    | some sym => exact ⟨1, _, rfl, rfl⟩
    | none =>
      obtain ⟨n, r, hs, hs'⟩ := ih ((h.record _ _).skip 1) (i + 1) (extendCode w ((s.cursor c).peek 1))
      exact ⟨n + 1, r, hs, hs'⟩

/-- The opening skips as much, and then the decode pulls equally many bits and answers alike. -/
theorem SameView.decodeSymbol_eq_pull {c : CursorId} {s s' : State} (h : SameView c s s') :
    ∃ n k r, s.decodeSymbol c = ((s.opened c n).pull c k).respond r ∧
      s'.decodeSymbol c = ((s'.opened c n).pull c k).respond r := by
  have hbuckets : s'.nbuckets = s.nbuckets := by rw [State.nbuckets, State.nbuckets, h.params, h.slot]
  unfold State.decodeSymbol
  rw [h.slot, h.decodeIndex_eq, hbuckets]
  cases s.slot.entry (s.decodeIndex c) with
  | hit sym len => exact ⟨len, 0, _, rfl, rfl⟩
  | invalid =>
    obtain ⟨k, r, hs, hs'⟩ := (h.opened s.params.P).scanBuckets_eq_pull s.nbuckets 0 (s.decodeIndex c)
    exact ⟨s.params.P, k, r, hs, by simpa only [State.opened, h.params] using hs'⟩

/-! The requests of the two parts of a decode (R161). -/

theorem State.opened_requests (s : State) (c : CursorId) (n : Nat) :
    (s.opened c n).requests = s.requests ++ opening s c n := by
  simp [State.opened, opening]

theorem SameView.opening_eq {c : CursorId} {s s' : State} (h : SameView c s s') (n : Nat) :
    opening s' c n = opening s c n := by
  rw [opening, opening, h.params, h.cursor]

@[simp] theorem pulls_zero (c : CursorId) (cur : Cursor) (k : Nat) : pulls c cur k 0 = [] := rfl

theorem pulls_succ (c : CursorId) (cur : Cursor) (k n : Nat) : pulls c cur k (n + 1) =
    [.peekBits c 1 (BitVec.ofNat 32 (cur.bit k).toNat), .skip c 1] ++ pulls c cur (k + 1) n := by
  simp [pulls, List.range_succ_eq_map, List.flatMap_map, Nat.add_assoc, Nat.add_comm 1]

@[simp] theorem pulls_advance (c : CursorId) (cur : Cursor) (m k n : Nat) :
    pulls c (cur.advance m) k n = pulls c cur k n := rfl

theorem State.pull_requests {s : State} (hwf : Memory.wf s.mem) (c : CursorId) (n : Nat) :
    (s.pull c n).requests = s.requests ++ pulls c (s.cursor c) (s.cursor c).pos n := by
  induction n generalizing s with
  | zero => simp [State.pull]
  | succ n ih =>
    rw [State.pull, ih ((s.peek c 1).wf_skip hwf c 1), State.skip_cursor_same (s.peek c 1) hwf, pulls_succ]
    simp [Cursor.peek_one]

/-! The two ways a decode goes on (R151, R158). -/

theorem exec_decode_of_noBook {s : State} (hb : s.bookValid = false) (c : CursorId) :
    exec (.decode c) s = .next (s.respond (.error .noBook)) :=
  (if_pos hb).trans (congrArg _ (s.raise_other rfl))

theorem exec_decode_of_book {s : State} (hb : s.bookValid = true) (hfail : s.params.cursorCanFail = false)
    (c : CursorId) : exec (.decode c) s = .next (s.decodeSymbol c) := by
  simp [exec, execDecode, hb, hfail]

/-- Settles O48: without a book both states answer `NoBook`; with one, the same script runs on both. -/
theorem decodeReadsOnlyTheBookAndItsCursor : Obligations.DecodeReadsOnlyTheBookAndItsCursor := by
  intro s s' t c hwf hwf' hparams hvalid hslot hcur h
  have hview : SameView c s s' := ⟨hwf, hwf', hparams, hvalid, hslot, hcur⟩
  rcases execDecode_next h with ⟨hb, rfl⟩ | ⟨hb, hfail, rfl⟩
  · exact ⟨_, exec_decode_of_noBook (hvalid.trans hb) c, rfl, hcur, [], by simp, by simp⟩
  · refine ⟨_, exec_decode_of_book (hvalid.trans hb) (by rwa [hparams]) c, ?_⟩
    obtain ⟨n, k, r, hs, hs'⟩ := hview.decodeSymbol_eq_pull
    have hopen := hview.opened n
    rw [hs, hs']
    refine ⟨rfl, ?_, opening s c n ++ pulls c ((s.opened c n).cursor c) ((s.opened c n).cursor c).pos k, ?_, ?_⟩
    · rw [State.respond_cursor, State.respond_cursor, State.pull_cursor_same c k _ hopen.wf',
        State.pull_cursor_same c k _ hopen.wf, hopen.cursor]
    · rw [State.respond_requests, State.pull_requests hopen.wf, State.opened_requests, List.append_assoc]
    · rw [State.respond_requests, State.pull_requests hopen.wf', State.opened_requests, List.append_assoc,
        hview.opening_eq, hopen.cursor]

/-! ## Decodes on different cursors (R62) -/

theorem exec_decode_goesOn {s : State} (hfail : s.params.cursorCanFail = false) (c : CursorId) :
    ∃ t, exec (.decode c) s = .next t := by
  cases hb : s.bookValid with
  | false => exact ⟨_, exec_decode_of_noBook hb c⟩
  | true => exact ⟨_, exec_decode_of_book hb hfail c⟩

/-- A decode of `c` before it does not change what a decode of `d` does: it goes on, with the same response and to the
same cursor `d`, and together they leave the engine and the cursors but `c` and `d` alone. -/
theorem exec_decode_after_other {s a b : State} {c d : CursorId} (hne : d ≠ c) (hwf : Memory.wf s.mem)
    (ha : exec (.decode c) s = .next a) (hb : exec (.decode d) s = .next b) :
    ∃ ab, exec (.decode d) a = .next ab ∧ ab.response = b.response ∧ ab.cursor d = b.cursor d ∧
      (∀ h, h ≠ d → ab.cursor h = a.cursor h) ∧ SameEngine s ab := by
  obtain ⟨hengine, -, -, -, hother⟩ := decodeWritesOnlyItsCursorPosition s a c hwf ha
  have ⟨hparams, hvalid, hslot, _⟩ := hengine
  have hwfa := exec_wf hwf ha
  obtain ⟨ab, hab, hresp, hcur, -⟩ :=
    decodeReadsOnlyTheBookAndItsCursor s a b d hwf hwfa hparams hvalid hslot (hother d hne) hb
  obtain ⟨hengine', -, -, -, hother'⟩ := decodeWritesOnlyItsCursorPosition a ab d hwfa hab
  exact ⟨ab, hab, hresp, hcur, hother', hengine.trans hengine'⟩

/-- Settles O49: each decode reads nothing the other writes (O47, O48). -/
theorem decodesOnDifferentCursorsCommute : Obligations.DecodesOnDifferentCursorsCommute := by
  intro s c d hne hwf hfail
  obtain ⟨a, ha⟩ := exec_decode_goesOn hfail c
  obtain ⟨b, hb⟩ := exec_decode_goesOn hfail d
  obtain ⟨ab, hab, habr, habd, habo, habe⟩ := exec_decode_after_other hne.symm hwf ha hb
  obtain ⟨ba, hba, hbar, hbac, hbao, hbae⟩ := exec_decode_after_other hne hwf hb ha
  refine ⟨a, ab, b, ba, ha, hab, hb, hba, hbar, habr, habe.symm.trans hbae, fun h => ?_⟩
  by_cases hc : h = c
  · subst hc
    exact (habo h hne).trans hbac.symm
  by_cases hd : h = d
  · subst hd
    exact habd.trans (hbao h hc).symm
  · obtain ⟨-, -, -, -, ha'⟩ := decodeWritesOnlyItsCursorPosition s a c hwf ha
    obtain ⟨-, -, -, -, hb'⟩ := decodeWritesOnlyItsCursorPosition s b d hwf hb
    rw [habo h hd, hbao h hc, ha' h hc, hb' h hd]

/-! ## The order of inputs (R60)

Acceptance takes the first input; one lemma for each layer says that nothing else touches the inbox. -/

@[simp] theorem State.build_inbox (s : State) (maxLength : Nat) (rows : List TableRow) :
    (s.build maxLength rows).inbox = s.inbox := by
  obtain ⟨-, -, hinbox, -⟩ := s.build_frame maxLength rows
  exact hinbox

theorem exec_inbox {i : Instr} {s u : State} (h : exec i s = .next u) : u.inbox = s.inbox := by
  rcases exec_next h with ⟨maxLength, t, -, rfl⟩ | ⟨ps, -, rfl⟩ | ⟨c, -, -, rfl⟩ | ⟨c, -, -, rfl⟩ | ⟨c, -, rfl⟩ |
    ⟨c, n, -, rfl⟩ | ⟨c, n, -, rfl⟩ <;> simp

theorem runLaunch_inbox {t : Transaction} {s u : State} (h : runLaunch t s = .next u) : u.inbox = s.inbox := by
  rcases runLaunch_next h with ⟨i, -, hi⟩ | ⟨-, rfl⟩
  · exact exec_inbox hi
  · rfl

theorem State.foldl_reissue_inbox (s : State) (issued : List Exchange) :
    (issued.foldl State.reissue s).inbox = s.inbox := by
  induction issued generalizing s with
  | nil => rfl
  | cons e es ih =>
    obtain ⟨-, -, -, -, hinbox, -⟩ := s.reissue_frame e
    exact (ih (s.reissue e)).trans hinbox

theorem runInput_inbox {input : Input} {s u : State} (h : runInput s input = .next u) : u.inbox = s.inbox := by
  cases input with
  | launch t => exact runLaunch_inbox h
  | reset => cases h; rfl
  | resetDuring cmd ops k =>
    obtain ⟨t, -, rfl⟩ := runResetDuring_next.1 h
    exact s.foldl_reissue_inbox _
  | place c cur => cases h; rfl
  | seek c pos => cases h; rfl
  | brokenLaunch hz t => cases h

/-- Settles O6: acceptance leaves the rest of the inbox, and no input touches it after that. -/
theorem stepTakesInputsInOrder : Obligations.StepTakesInputsInOrder := by
  intro s t input rest hs h
  rw [step_cons hs] at h
  calc t.inbox = s.accept.inbox := runInput_inbox h
    _ = rest := by rw [State.accept_inbox, hs, List.tail_cons]

theorem State.accept_eq {s : State} {input : Input} {rest : List Input} (h : s.inbox = input :: rest) :
    s.accept = { s with inbox := rest, response := none, requests := [] } := by
  rw [State.accept, h, List.tail_cons]

theorem runLaunch_of_decode {t : Transaction} {i : Instr} (h : decode t = .ok i) (s : State) :
    runLaunch t s = exec i s := by
  rw [runLaunch, h]

/-- Settles O5: the step is the launch on the accepted state, and the launch is the decoded instruction. -/
theorem stepRunsTheDecodedInstruction : Obligations.StepRunsTheDecodedInstruction := by
  refine ⟨fun s tr rest i hs hi => ?_, fun s hs => step_idle hs⟩
  rw [step_cons hs, ← State.accept_eq hs]
  exact runLaunch_of_decode hi s.accept

/-- Settles O56: the input that stands for a broken hazard has no other outcome than its refusal (R61, R64). -/
theorem brokenLaunchesAreRefused : Obligations.BrokenLaunchesAreRefused :=
  fun _ _ _ _ hs => step_cons hs

/-! ## The value of a peek (R50, R53) -/

/-- `val` of a run of stream bits as a sum: the first bit weighs most. -/
theorem Cursor.val_bitsFrom (c : Cursor) (k n : Nat) :
    val (c.bitsFrom k n) = ∑ i ∈ Finset.range n, (c.bit (k + i)).toNat * 2 ^ (n - 1 - i) := by
  induction n generalizing k with
  | zero => rfl
  | succ n ih =>
    rw [Cursor.bitsFrom, val_cons, Cursor.length_bitsFrom, ih, Finset.sum_range_succ', add_comm]
    congr 1
    refine Finset.sum_congr rfl fun i _ => ?_
    have hexp : n + 1 - 1 - (i + 1) = n - 1 - i := by omega
    rw [hexp, Nat.add_right_comm k 1 i, Nat.add_assoc]

/-- `lsbVal` of a run of stream bits as a sum: the first bit weighs 1. -/
theorem Cursor.lsbVal_bitsFrom (c : Cursor) (k n : Nat) :
    lsbVal (c.bitsFrom k n) = ∑ i ∈ Finset.range n, (c.bit (k + i)).toNat * 2 ^ i := by
  induction n generalizing k with
  | zero => rfl
  | succ n ih =>
    rw [Cursor.bitsFrom, lsbVal_cons, ih, Finset.sum_range_succ', add_comm, Finset.mul_sum, pow_zero, mul_one]
    congr 1
    refine Finset.sum_congr rfl fun i _ => ?_
    rw [Nat.add_right_comm k 1 i, Nat.add_assoc, pow_succ]
    ring

theorem lsbVal_append (t u : List Bool) : lsbVal (t ++ u) = lsbVal t + 2 ^ t.length * lsbVal u := by
  induction t with
  | nil => simp
  | cons b t ih =>
    rw [List.cons_append, lsbVal_cons, lsbVal_cons, ih, List.length_cons]
    ring

theorem Cursor.peek_of_msb {c : Cursor} (h : c.msb = true) (n : Nat) : c.peek n = val (c.next n) :=
  if_pos h

theorem Cursor.peek_of_lsb {c : Cursor} (h : c.msb = false) (n : Nat) : c.peek n = lsbVal (c.next n) :=
  if_neg (by simp [h])

/-- Settles O21: the wider peek's bits are the narrower one's, then others, which are the low bits MSB-first and the
high bits LSB-first. -/
theorem peeksOfDifferentWidthsAgree : Obligations.PeeksOfDifferentWidthsAgree := by
  intro cur n m hnm
  have hsplit : cur.next m = cur.next n ++ cur.bitsFrom (cur.pos + n) (m - n) := by
    rw [Cursor.next, Cursor.next, ← Cursor.bitsFrom_add, Nat.add_sub_cancel' hnm]
  constructor
  · intro hmsb
    have hrest := val_lt (cur.bitsFrom (cur.pos + n) (m - n))
    rw [Cursor.length_bitsFrom] at hrest
    rw [Cursor.peek_of_msb hmsb, Cursor.peek_of_msb hmsb, hsplit, val_append, Cursor.length_bitsFrom, Nat.mul_comm,
      Nat.mul_add_div (Nat.two_pow_pos _), Nat.div_eq_of_lt hrest, Nat.add_zero]
  · intro hlsb
    have hfirst := lsbVal_lt (cur.next n)
    rw [Cursor.next, Cursor.length_bitsFrom] at hfirst
    rw [Cursor.peek_of_lsb hlsb, Cursor.peek_of_lsb hlsb, hsplit, lsbVal_append, Cursor.next,
      Cursor.length_bitsFrom, Nat.add_mul_mod_self_left, Nat.mod_eq_of_lt hfirst]

/-! ## The cursor requests (R50 to R52, R56) -/

theorem exec_peekBits {s : State} (hfail : s.params.cursorCanFail = false) (c : CursorId) (n : Fin 33) :
    exec (.peekBits c n) s = .next (s.peek c n.val) := by
  simp [exec, execPeekBits, hfail]

/-- When `PEEK_BITS` goes on, and to what. -/
theorem exec_peekBits_next {c : CursorId} {n : Fin 33} {s t : State} (h : exec (.peekBits c n) s = .next t) :
    t = s.peek c n.val := by
  cases hfail : s.params.cursorCanFail with
  | true => simp [exec, execPeekBits, hfail] at h
  | false =>
    rw [exec_peekBits hfail] at h
    cases h
    rfl

/-- The reply of a peek holds the whole value: at most 32 bits are asked for. -/
theorem Cursor.toNat_peek_reply (c : Cursor) (n : Fin 33) : (BitVec.ofNat 32 (c.peek n.val)).toNat = c.peek n.val := by
  rw [BitVec.toNat_ofNat]
  exact Nat.mod_eq_of_lt ((c.peek_lt n.val).trans_le (Nat.pow_le_pow_right Nat.two_pos (Nat.le_of_lt_succ n.isLt)))

/-- Settles O17: the peek is a recorded request, its reply the sum of the stream bits by the cursor's mode. -/
theorem peekBitsAnswersTheNextStreamBits : Obligations.PeekBitsAnswersTheNextStreamBits := by
  intro s c n hfail
  refine ⟨s.peek c n.val, _, exec_peekBits hfail c n, rfl, ?_, .refl s, rfl, rfl, rfl⟩
  rw [Cursor.toNat_peek_reply, Cursor.peek, Cursor.val_bitsFrom, Cursor.lsbVal_bitsFrom]

/-- Settles O19: in canonical form the cursor written is the cursor read back. -/
theorem skipMovesItsCursorOnly : Obligations.SkipMovesItsCursorOnly := by
  intro s c n hwf
  have hsame : (s.skip c n.val).cursor c = (s.cursor c).advance n.val := s.skip_cursor_same hwf c n.val
  exact ⟨s.skip c n.val, rfl, congrArg Cursor.pos hsame, ⟨hsame, fun h hne => s.skip_cursor_other hne n.val⟩, rfl,
    .refl s, rfl, rfl⟩

/-- Settles O20: the reply is the reported mode, and recording it is all that happens. -/
theorem isMsbFirstAnswersTheReportedMode : Obligations.IsMsbFirstAnswersTheReportedMode :=
  fun s c => ⟨s.askMsbFirst c, _, rfl, rfl, rfl, id, .refl s, rfl, rfl, rfl⟩

/-- Settles O22: the first peek leaves the cursor as it was, so the second asks the same. -/
theorem peekIsIdempotent : Obligations.PeekIsIdempotent := by
  intro s t u c n ht hu
  obtain rfl := exec_peekBits_next ht
  obtain rfl := exec_peekBits_next hu
  refine ⟨_, s.peek_requests c n.val, ?_⟩
  rw [State.peek_requests, State.peek_cursor]

end Sys2Proof.Machine
end

section
/-!
The family 30_encoding.md: the encodings (R94, R96, R100, R101), what a transaction answers (R95), the layouts and
numbers (R84, R95), and the assembly of operands (R86 to R92, R99).
-/

namespace Sys2Proof.Machine

/-! ## The bytes (R94, R96, R100) -/

/-- The byte of an opcode selects it, and no other byte does (R94). -/
theorem decodeCmdByte_eq_some {cmd : Byte} {op : Opcode} : decodeCmdByte cmd = some op ↔ cmd = op.cmdByte := by
  revert cmd
  rcases op with (_ | _) | _ | _ <;> decide

/-- A request byte is its kind and its count, with no bit beside them (R100). -/
theorem reqByte_fields (req : Byte) : reqByte (req.extractLsb' 6 2) (req.extractLsb' 0 6).toNat = req := by
  revert req
  decide

@[simp] theorem reqByte_kind (kind : BitVec 2) (n : Nat) : (reqByte kind n).extractLsb' 6 2 = kind :=
  BitVec.extractLsb'_append_eq_left

@[simp] theorem reqByte_count (kind : BitVec 2) (n : Nat) : (reqByte kind n).extractLsb' 0 6 = BitVec.ofNat 6 n :=
  BitVec.extractLsb'_append_eq_right

/-! ## The arrays of operands (R94) -/

/-- An array taken element by element is what stood at the front, and the rest is what followed: said once for the
arrays of words and those of bytes. -/
theorem take_eq_some {α : Type} {wrap : α → Operand} {take : Nat → List Operand → Option (List α × List Operand)}
    (zero : ∀ ops, take 0 ops = some ([], ops))
    (succ : ∀ n v ops, take (n + 1) (wrap v :: ops) = (take n ops).map fun r => (v :: r.1, r.2))
    (other : ∀ n ops, (∀ v ops', ops ≠ wrap v :: ops') → take (n + 1) ops = none)
    {n : Nat} {ops rest : List Operand} {vs : List α} :
    take n ops = some (vs, rest) ↔ vs.length = n ∧ ops = vs.map wrap ++ rest := by
  induction n generalizing ops vs with
  | zero =>
    rw [zero]
    cases vs <;> simp
  | succ n ih =>
    constructor
    · intro h
      by_cases hops : ∃ v ops', ops = wrap v :: ops'
      · obtain ⟨v, ops', rfl⟩ := hops
        rw [succ, Option.map_eq_some_iff] at h
        obtain ⟨⟨vs', rest'⟩, htail, hcons⟩ := h
        cases hcons
        obtain ⟨hlen, rfl⟩ := ih.1 htail
        exact ⟨congrArg Nat.succ hlen, rfl⟩
      · simp [other n ops (by simpa using hops)] at h
    · rintro ⟨hlen, rfl⟩
      cases vs with
      | nil => cases hlen
      | cons v vs => simp [succ, ih.2 ⟨Nat.succ.inj hlen, rfl⟩]

theorem takeWords_eq_some {n : Nat} {ops rest : List Operand} {vs : List Word} :
    takeWords n ops = some (vs, rest) ↔ vs.length = n ∧ ops = vs.map .word ++ rest := by
  refine take_eq_some (fun _ => by rw [takeWords]) (fun n v ops => ?_) fun n ops hops => ?_
  · rw [takeWords]
    cases takeWords n ops <;> rfl
  · rw [takeWords]
    exact hops

theorem takeBytes_eq_some {n : Nat} {ops rest : List Operand} {vs : List Byte} :
    takeBytes n ops = some (vs, rest) ↔ vs.length = n ∧ ops = vs.map .byte ++ rest := by
  refine take_eq_some (fun _ => by rw [takeBytes]) (fun n v ops => ?_) fun n ops hops => ?_
  · rw [takeBytes]
    cases takeBytes n ops <;> rfl
  · rw [takeBytes]
    exact hops

/-- The words of a list, written out as operands, are read back. -/
theorem takeWords_map {α : Type} (f : α → Word) (xs : List α) (rest : List Operand) :
    takeWords xs.length (xs.map (fun x => .word (f x)) ++ rest) = some (xs.map f, rest) :=
  takeWords_eq_some.2 ⟨List.length_map f, by rw [List.map_map]; rfl⟩

theorem takeBytes_map {α : Type} (f : α → Byte) (xs : List α) (rest : List Operand) :
    takeBytes xs.length (xs.map (fun x => .byte (f x)) ++ rest) = some (xs.map f, rest) :=
  takeBytes_eq_some.2 ⟨List.length_map f, by rw [List.map_map]; rfl⟩

/-! Two arrays side by side. -/

section Zip
variable {α β γ : Type} {as : List α} {bs : List β}

/-- What reads only the first of two equally long arrays reads all of it. -/
theorem zipWith_left (k : α → γ) (h : as.length = bs.length) : List.zipWith (fun a _ => k a) as bs = as.map k := by
  induction as generalizing bs with
  | nil => rfl
  | cons a as ih =>
    cases bs with
    | nil => cases h
    | cons b bs => simp [ih (Nat.succ.inj h)]

theorem zipWith_right (k : β → γ) (h : as.length = bs.length) : List.zipWith (fun _ b => k b) as bs = bs.map k := by
  rw [List.zipWith_comm, zipWith_left k h.symm]

end Zip

/-! The arrays of the two builds. -/

theorem encodeTable_eq_cons (t : TableOperand) :
    encodeTable t = .word (BitVec.ofNat 32 t.count) :: (encodeTable t).tail :=
  rfl

/-- The pairs of `BUILD_FREQ` are read from exactly the operands that stand for them. -/
theorem decodePairs_eq_some {n : Nat} {ops : List Operand} {ps : List FreqPair} :
    decodePairs n ops = some ps ↔
      ps.length = n ∧ ops = ps.map (.word ·.symbol) ++ ps.map (.word ·.freq) := by
  constructor
  · intro h
    unfold decodePairs at h
    split at h
    · cases h
    next syms ops' hsyms =>
    split at h
    next freqs hfreqs =>
      cases h
      obtain ⟨rfl, rfl⟩ := takeWords_eq_some.1 hsyms
      obtain ⟨hlen, rfl⟩ := takeWords_eq_some.1 hfreqs
      simp [hlen, List.map_zipWith, zipWith_left, zipWith_right]
    · cases h
  · rintro ⟨rfl, rfl⟩
    have hfreqs := takeWords_map FreqPair.freq ps []
    rw [List.append_nil] at hfreqs
    simp [decodePairs, takeWords_map, hfreqs, List.zipWith_map, List.zipWith_self]

/-- The arrays of `BUILD_TABLE` are read from exactly the operands that stand for them after `codeCount`. -/
theorem decodeTable_eq_some {symbols : Bool} {n : Nat} {ops : List Operand} {t : TableOperand} :
    decodeTable symbols n ops = some t ↔
      t.hasSymbols = symbols ∧ t.count = n ∧ ops = (encodeTable t).tail := by
  constructor
  · intro h
    unfold decodeTable at h
    split at h
    · cases h
    next codes ops' hcodes =>
    split at h
    · cases h
    next lengths ops' hlengths =>
    obtain ⟨rfl, rfl⟩ := takeWords_eq_some.1 hcodes
    obtain ⟨hlen, rfl⟩ := takeBytes_eq_some.1 hlengths
    cases symbols with
    | true =>
      simp only [if_true] at h
      split at h
      next syms hsyms =>
        cases h
        obtain ⟨hlen', rfl⟩ := takeWords_eq_some.1 hsyms
        refine ⟨rfl, by simp [TableOperand.count, hlen, hlen'], ?_⟩
        simp [encodeTable, hlen, hlen', List.zip, List.map_zipWith, zipWith_left, zipWith_right]
      · cases h
    | false =>
      simp only [Bool.false_eq_true, if_false] at h
      split at h
      · cases h
        refine ⟨rfl, by simp [TableOperand.count, hlen], ?_⟩
        simp [encodeTable, hlen, List.map_zipWith, zipWith_left, zipWith_right]
      · cases h
  · rintro ⟨rfl, rfl, rfl⟩
    cases t with
    | indexed es =>
      have hlengths := takeBytes_map CodeEntry.length es []
      rw [List.append_nil] at hlengths
      simp [decodeTable, TableOperand.count, TableOperand.hasSymbols, encodeTable, takeWords_map, hlengths,
        List.zipWith_map, List.zipWith_self]
    | named es =>
      have hsyms := takeWords_map Prod.snd es []
      rw [List.append_nil] at hsyms
      simp [decodeTable, TableOperand.count, TableOperand.hasSymbols, encodeTable, takeWords_map, takeBytes_map, hsyms,
        List.zipWith_map, List.zipWith_self, List.zip]


/-! ## The commands and the requests (R94, R96, R100) -/

/-- The operands of a legal command are the encoding of the instruction read from them. -/
theorem encode_of_decodeOperands {op : Opcode} {ops : List Operand} {i : Instr} (h : decodeOperands op ops = some i) :
    i.wellFormed = true ∧ encode i = .command op.cmdByte ops := by
  unfold decodeOperands at h
  split at h
  next symbols maxLength count ops =>
    split at h
    next t ht =>
      cases h
      obtain ⟨rfl, hcount, rfl⟩ := decodeTable_eq_some.1 ht
      simp [Instr.wellFormed, encode, encodeTable, hcount, count.isLt]
    next => cases h
  next n ops =>
    split at h
    next ps hps =>
      cases h
      obtain ⟨hcount, rfl⟩ := decodePairs_eq_some.1 hps
      simp [Instr.wellFormed, encode, hcount, n.isLt]
    next => cases h
  next c =>
    cases h
    exact ⟨rfl, rfl⟩
  next => cases h

/-- An array's count fits its operand (R7), so it is read back. -/
theorem toNat_count {n : Nat} (hn : n < 2 ^ 32) : (BitVec.ofNat 32 n).toNat = n :=
  Nat.mod_eq_of_lt hn

theorem decodeOperands_buildTable (maxLength : Byte) {t : TableOperand} (ht : t.count < 2 ^ 32) :
    decodeOperands (.buildTable t.hasSymbols) (.byte maxLength :: encodeTable t) = some (.buildTable maxLength t) := by
  have harrays : decodeTable t.hasSymbols t.count (encodeTable t).tail = some t :=
    decodeTable_eq_some.2 ⟨rfl, rfl, rfl⟩
  rw [encodeTable_eq_cons]
  simp only [decodeOperands, toNat_count ht, harrays]

theorem decodeOperands_buildFreq {ps : List FreqPair} (hps : ps.length < 2 ^ 32) :
    decodeOperands .buildFreq
      (.word (BitVec.ofNat 32 ps.length) :: (ps.map (.word ·.symbol) ++ ps.map (.word ·.freq))) =
      some (.buildFreq ps) := by
  have harrays := (decodePairs_eq_some (ps := ps)).2 ⟨rfl, rfl⟩
  simp only [decodeOperands, toNat_count hps, harrays]

/-- A command decodes exactly when its byte is that of an opcode whose operands it has (R94, R96). -/
theorem decode_command_eq_ok {cmd : Byte} {ops : List Operand} {i : Instr} :
    decode (.command cmd ops) = .ok i ↔ ∃ op, cmd = op.cmdByte ∧ decodeOperands op ops = some i := by
  simp only [← decodeCmdByte_eq_some, decode, decodeCommand]
  cases decodeCmdByte cmd with
  | none => simp
  | some op => cases hi : decodeOperands op ops <;> simp [hi]

theorem encode_of_decodeRequest {c : CursorId} {req : Byte} {i : Instr} (h : decodeRequest c req = .ok i) :
    i.wellFormed = true ∧ encode i = .request c req := by
  have hreq := reqByte_fields req
  unfold decodeRequest at h
  dsimp only at h
  split_ifs at h with hkind hn hlt hkind hkind' <;> cases h
  · rw [hkind, hn] at hreq
    exact ⟨rfl, congrArg (Transaction.request c) hreq⟩
  · rw [hkind] at hreq
    exact ⟨rfl, congrArg (Transaction.request c) hreq⟩
  · rw [hkind'] at hreq
    exact ⟨rfl, congrArg (Transaction.request c) hreq⟩

/-- A bit count fits the count field (R100), so it is read back. -/
theorem bitCount_mod (n : Fin 33) : n.val % 64 = n.val :=
  Nat.mod_eq_of_lt (n.isLt.trans (by decide))

theorem decodeRequest_peekBitsReq (c : CursorId) (n : Fin 33) :
    decodeRequest c (peekBitsReq n.val) = .ok (.peekBits c n) := by
  simp [decodeRequest, peekBitsReq, bitCount_mod]

theorem decodeRequest_skipReq (c : CursorId) (n : Fin 33) : decodeRequest c (skipReq n.val) = .ok (.skip c n) := by
  simp [decodeRequest, skipReq, bitCount_mod]

/-! ## The round trips (R94, R100, R101) -/

/-- Settles O12: instruction by instruction, the byte selects the row and the operands are read back. -/
theorem decodeOfEncodeIsIdentity : Obligations.DecodeOfEncodeIsIdentity := by
  intro i hwf
  cases i with
  | buildTable maxLength t =>
    exact decode_command_eq_ok.2 ⟨_, rfl, decodeOperands_buildTable maxLength (of_decide_eq_true hwf)⟩
  | buildFreq ps => exact decode_command_eq_ok.2 ⟨_, rfl, decodeOperands_buildFreq (of_decide_eq_true hwf)⟩
  | decode c => exact decode_command_eq_ok.2 ⟨.decode, rfl, rfl⟩
  | isMsbFirst c => rfl
  | peekBits c n => exact decodeRequest_peekBitsReq c n
  | skip c n => exact decodeRequest_skipReq c n

/-- Settles O13: at either interface what is decoded is the encoding of the result. -/
theorem encodeOfDecodeIsIdentity : Obligations.EncodeOfDecodeIsIdentity := by
  intro tr i h
  cases tr with
  | command cmd ops =>
    obtain ⟨op, rfl, hi⟩ := decode_command_eq_ok.1 h
    exact encode_of_decodeOperands hi
  | request c req => exact encode_of_decodeRequest h

/-- Settles O14: each word is the encoding of its instruction. -/
theorem wordsOfTheSpecDecode : Obligations.WordsOfTheSpecDecode :=
  ⟨decodeOfEncodeIsIdentity (.buildTable 0#8 (.named [(⟨0#32, 1#8⟩, 65#32), (⟨2#32, 2#8⟩, 66#32)])) rfl,
    decodeOfEncodeIsIdentity (.buildTable 12#8 (.indexed [⟨6#32, 3#8⟩])) rfl,
    decodeOfEncodeIsIdentity (.buildFreq [⟨9#32, 10#32⟩, ⟨8#32, 1#32⟩]) rfl,
    decodeOfEncodeIsIdentity (.decode 7) rfl,
    decodeOfEncodeIsIdentity (.isMsbFirst 7) rfl,
    decodeOfEncodeIsIdentity (.peekBits 7 8) rfl,
    decodeOfEncodeIsIdentity (.skip 7 32) rfl⟩

/-! ## What is no instruction (R94, R96, R100) -/

theorem decode_command_illegal {cmd : Byte} {ops : List Operand} :
    decode (.command cmd ops) = .error .illegalCommand ↔ decodeCmdByte cmd = none := by
  simp only [decode, decodeCommand]
  cases decodeCmdByte cmd with
  | none => simp
  | some op => cases hi : decodeOperands op ops <;> simp [hi]

/-- Settles O11: a byte is legal when it is the byte of an opcode, and there are four (R94). -/
theorem exactlyFourCommandBytesAreLegal : Obligations.ExactlyFourCommandBytesAreLegal := by
  intro cmd ops
  rw [Ne, decode_command_illegal, ← Ne, Option.ne_none_iff_exists']
  simp only [decodeCmdByte_eq_some]
  constructor
  · rintro ⟨(_ | _) | _ | _, rfl⟩ <;> decide
  · rintro (rfl | rfl | rfl | rfl)
    · exact ⟨.buildTable false, rfl⟩
    · exact ⟨.buildFreq, rfl⟩
    · exact ⟨.decode, rfl⟩
    · exact ⟨.buildTable true, rfl⟩

/-- The three ways of R96. -/
theorem decodeCmdByte_eq_none {cmd : Byte} (h : cmd.extractLsb' 0 2 = 0#2 ∨ cmd.extractLsb' 3 5 ≠ 0#5 ∨
    (cmd.getLsbD 2 = true ∧ cmd.extractLsb' 0 2 ≠ 1#2)) : decodeCmdByte cmd = none := by
  unfold decodeCmdByte
  rcases h with hop | hhigh | ⟨hs, hop⟩
  · simp [hop]
  · simp [hhigh]
  · simp [hs, hop]

theorem runLaunch_of_error {t : Transaction} {e : DecodeError} (h : decode t = .error e) (s : State) :
    runLaunch t s = s.reject e := by
  rw [runLaunch, h]

/-- Settles O10: the byte selects no opcode, so the launch is answered and no more happens (R96, R178). -/
theorem illegalCommandByteChangesNothing : Obligations.IllegalCommandByteChangesNothing := by
  intro s cmd ops rest hs hcmd
  have hdecode : decode (.command cmd ops) = .error .illegalCommand :=
    decode_command_illegal.2 (decodeCmdByte_eq_none hcmd)
  calc step s = runLaunch (.command cmd ops) s.accept := step_cons hs
    _ = .next (s.accept.raise .illegalCommand) := runLaunch_of_error hdecode s.accept
    _ = _ := by rw [State.raise_other _ rfl, State.accept_eq hs]; rfl

/-- A request of the unused kind, above 32 bits, or asking the mode with a count, is never issued (R100, U12). -/
theorem decodeRequest_reserved {req : Byte} (h : req.extractLsb' 6 2 = 3#2 ∨ 32 < (req.extractLsb' 0 6).toNat ∨
    (req.extractLsb' 6 2 = 0#2 ∧ (req.extractLsb' 0 6).toNat ≠ 0)) (c : CursorId) :
    decodeRequest c req = .error .reservedRequest := by
  unfold decodeRequest
  dsimp only
  rcases h with hkind | hn | ⟨hkind, hn⟩
  · simp [hkind]
  · have hpos : (req.extractLsb' 0 6).toNat ≠ 0 := by omega
    rw [if_neg hpos, dif_neg (by omega), ite_self]
  · rw [if_pos hkind, if_neg hn]

theorem decodeRequest_ne_illegal (c : CursorId) (req : Byte) : decodeRequest c req ≠ .error .illegalCommand := by
  unfold decodeRequest
  dsimp only
  split_ifs <;> nofun

/-- Settles O57: the step refuses by the name of the decode error. -/
theorem malformedTransactionsAreRefused : Obligations.MalformedTransactionsAreRefused := by
  intro s tr rest hs
  have hstep {e : DecodeError} (he : decode tr = .error e) : step s = s.accept.reject e :=
    (step_cons hs).trans (runLaunch_of_error he s.accept)
  refine ⟨hstep, ?_⟩
  rintro c req rfl hreq
  exact hstep (decodeRequest_reserved hreq c)

/-! ## What a transaction answers (R95) -/

/-- An instruction of the command interface is a build or a decode (R94). -/
theorem isBuild_or_decode_of_command {cmd : Byte} {ops : List Operand} {i : Instr}
    (h : decode (.command cmd ops) = .ok i) : IsBuild i ∨ ∃ c, i = .decode c := by
  obtain ⟨-, henc⟩ := encodeOfDecodeIsIdentity _ _ h
  cases i with
  | buildTable maxLength t => exact .inl (.inl ⟨maxLength, t, rfl⟩)
  | buildFreq ps => exact .inl (.inr ⟨ps, rfl⟩)
  | decode c => exact .inr ⟨c, rfl⟩
  | isMsbFirst c => cases henc
  | peekBits c n => cases henc
  | skip c n => cases henc

/-- A build that goes on responds, without a symbol. -/
theorem exec_build_response {i : Instr} {s u : State} (hi : IsBuild i) (h : exec i s = .next u) :
    ∃ r, u.response = some r ∧ ∀ sym, r ≠ .okSymbol sym := by
  obtain ⟨maxLength, rows, -, rfl⟩ := exec_build_next hi h
  rcases s.build_cases maxLength (enteredRows s.params rows) with ⟨e, -, hb⟩ | ⟨-, hb⟩ <;> rw [hb]
  · exact ⟨.error e, rfl, nofun⟩
  · exact ⟨.ok, rfl, nofun⟩

theorem exec_decode_response {c : CursorId} {s u : State} (h : exec (.decode c) s = .next u) :
    ∃ r, u.response = some r := by
  rcases execDecode_next h with ⟨-, rfl⟩ | ⟨-, -, rfl⟩
  · exact ⟨_, rfl⟩
  · obtain ⟨n, k, r, hd⟩ := s.decodeSymbol_eq_pull c
    exact ⟨r, by rw [hd, State.respond_response]⟩

/-- A request that goes on leaves the response as it was (R100). -/
theorem runLaunch_request_response {c : CursorId} {req : Byte} {s u : State}
    (h : runLaunch (.request c req) s = .next u) : u.response = s.response := by
  rcases runLaunch_next h with ⟨i, hi, hu⟩ | ⟨he, -⟩
  · obtain ⟨-, henc⟩ := encodeOfDecodeIsIdentity _ _ hi
    rcases exec_next hu with ⟨maxLength, t, rfl, -⟩ | ⟨ps, rfl, -⟩ | ⟨c', rfl, -, -⟩ | ⟨c', rfl, -, -⟩ |
      ⟨c', -, rfl⟩ | ⟨c', n, -, rfl⟩ | ⟨c', n, -, rfl⟩
    · cases henc
    · cases henc
    · cases henc
    · cases henc
    · rfl
    · rfl
    · rfl
  · exact absurd he (decodeRequest_ne_illegal c req)

/-- Settles O7: a command that goes on is a build, a decode, or an illegal byte, and each responds (R95). -/
theorem onlyCommandsRespondAndOnlyDecodeCarriesASymbol :
    Obligations.OnlyCommandsRespondAndOnlyDecodeCarriesASymbol := by
  intro s t tr rest hs h
  rw [step_cons hs] at h
  constructor
  · rintro cmd ops rfl
    rcases runLaunch_next h with ⟨i, hi, hu⟩ | ⟨-, rfl⟩
    · rcases isBuild_or_decode_of_command hi with hbuild | ⟨c, rfl⟩
      · obtain ⟨r, hr, hsym⟩ := exec_build_response hbuild hu
        exact ⟨r, hr, fun sym hr' => absurd hr' (hsym sym)⟩
      · obtain ⟨r, hr⟩ := exec_decode_response hu
        exact ⟨r, hr, fun _ _ => ⟨c, hi⟩⟩
    · exact ⟨_, rfl, nofun⟩
  · rintro c req rfl
    exact runLaunch_request_response h

/-! ## Layouts and numbers (R84, R95) -/

/-- Settles O15: valid bit, length and symbol are appended in this order, and a length up to 32 fits its 6 bits. -/
theorem entryLayoutHasTheBitsOfTheSpec : Obligations.EntryLayoutHasTheBitsOfTheSpec := by
  refine ⟨fun sym len _ hlen => ⟨?_, ?_, ?_⟩, by decide⟩
  · rw [PrefixEntry.layout, BitVec.getLsbD_append, BitVec.getLsbD_append]
    rfl
  · have hfield : (PrefixEntry.hit sym len).layout.extractLsb' 32 6 = BitVec.ofNat 6 len := by
      rw [PrefixEntry.layout, BitVec.extractLsb'_append_eq_of_le (Nat.le_refl 32)]
      exact BitVec.extractLsb'_append_eq_right
    rw [hfield]
    exact Nat.mod_eq_of_lt (by omega)
  · exact BitVec.extractLsb'_append_eq_right

/-- Settles O16: one case for each response. -/
theorem statusNumbersOfResponses : Obligations.StatusNumbersOfResponses := by
  refine ⟨rfl, fun _ => rfl, rfl, rfl, rfl, rfl, rfl, rfl, fun r => ?_⟩
  rcases r with _ | sym | (_ | _ | _ | _ | _ | _) <;> simp [Response.status, EngineError.code]

/-! ## The rows of a table (R86, R99) -/

/-- The rows of a table without symbols pair each entry with its index (R86). -/
theorem indexedRows_eq_map (k : Nat) (es : List CodeEntry) : indexedRows k es =
    (es.zipIdx k).map fun e => { code := e.1.code, length := e.1.length.toNat, symbol := BitVec.ofNat 32 e.2 } := by
  induction es generalizing k with
  | nil => rfl
  | cons e es ih => rw [indexedRows, ih, List.zipIdx_cons, List.map_cons]

/-- Settles O58: both forms map their entries one by one. -/
theorem tableRowsCarryCodeLengthAndSymbol : Obligations.TableRowsCarryCodeLengthAndSymbol := by
  refine ⟨fun es i => List.getElem?_map, fun es i => ?_⟩
  rw [tableRows, indexedRows_eq_map, List.getElem?_map, List.getElem?_zipIdx, Option.map_map, Nat.zero_add]
  rfl

/-- `BUILD_TABLE` depends on its table through the count and the rows alone. -/
theorem exec_buildTable_congr {t t' : TableOperand} (hcount : t.count = t'.count) (hrows : tableRows t = tableRows t')
    (maxLength : Byte) (s : State) : exec (.buildTable maxLength t) s = exec (.buildTable maxLength t') s := by
  simp only [exec, execBuildTable, hcount, hrows]

/-- Settles O29: the two tables have the same count and the same rows. -/
theorem absentSymbolsAreEntryIndices : Obligations.AbsentSymbolsAreEntryIndices := by
  intro s maxLength es
  refine exec_buildTable_congr ?_ ?_ maxLength s
  · simp [TableOperand.count]
  · rw [tableRows, tableRows, indexedRows_eq_map, List.map_map]
    rfl

/-! ## The hand-over of `BUILD_FREQ` (R99, R141) -/

@[simp] theorem length_pushBit (bit : Bool) (ls : List Nat) (i : Nat) (rows : List TableRow) :
    (pushBit bit ls i rows).length = rows.length := by
  induction rows generalizing i with
  | nil => rfl
  | cons r rows ih => simp [pushBit, ih]

/-- No round adds or drops a leaf. -/
theorem Work.length_leaves_rounds (k : Nat) (w : Work) : (w.rounds k).leaves.length = w.leaves.length := by
  induction k generalizing w with
  | zero => rfl
  | succ k ih =>
    rw [Work.rounds]
    split
    · simp [ih, Work.merge]
    · rfl

/-- The merge gives one row for each pair (R141). -/
@[simp] theorem length_mergeRows (ps : List FreqPair) : (mergeRows ps).length = ps.length := by
  rw [mergeRows, Work.length_leaves_rounds, Work.seed, List.length_map]

@[simp] theorem count_handOver (ps : List FreqPair) : (handOver ps).count = ps.length := by
  simp [handOver, TableOperand.count]

/-- Lengths that fit the 8-bit operand are handed over unchanged. -/
theorem tableRows_handOver {ps : List FreqPair} (h : ∀ r ∈ mergeRows ps, r.length < 256) :
    tableRows (handOver ps) = mergeRows ps := by
  rw [handOver, tableRows, List.map_map]
  refine (List.map_congr_left fun r hr => ?_).trans (List.map_id _)
  have hlen : (BitVec.ofNat 8 r.length).toNat = r.length := Nat.mod_eq_of_lt (h r hr)
  simp [hlen]

/-- Settles O39: both commands ask the same capacity and enter the same rows. -/
theorem buildFreqIsBuildTableOfTheMerge : Obligations.BuildFreqIsBuildTableOfTheMerge := by
  intro s ps h
  simp only [exec, execBuildFreq, execBuildTable, count_handOver, tableRows_handOver h]
  rfl

/-! ## Fill range, table index, bit append (R88, R89, R92) -/

/-- Settles O23: the range holds the numbers whose quotient by `2^(P - L)` is the code; they lie below `2^P` because
the code fits. -/
theorem fillRangeIsTheIndicesWithTheCodeOnTop : Obligations.FillRangeIsTheIndicesWithTheCodeOnTop := by
  intro P r _ hle hfits j
  have hpos : 0 < 2 ^ (P - r.length) := Nat.two_pow_pos _
  have hend : r.code.toNat * 2 ^ (P - r.length) + 2 ^ (P - r.length) ≤ 2 ^ P := by
    calc r.code.toNat * 2 ^ (P - r.length) + 2 ^ (P - r.length)
        = (r.code.toNat + 1) * 2 ^ (P - r.length) := (Nat.succ_mul _ _).symm
      _ ≤ 2 ^ r.length * 2 ^ (P - r.length) := Nat.mul_le_mul_right _ hfits
      _ = 2 ^ P := by rw [← Nat.pow_add, Nat.add_sub_cancel' hle]
  rw [Covers, Nat.div_eq_iff hpos, fillStart, fillCount, Nat.shiftLeft_eq]
  omega

/-- Reversing the number of an LSB-first packing gives the number of the string (R11, R89). -/
theorem rev_lsbVal (t : List Bool) : rev t.length (lsbVal t) = val t := by
  induction t with
  | nil => rfl
  | cons b t ih =>
    have hb := Bool.toNat_le_one_of b
    have hlow : (b.toNat + 2 * lsbVal t) % 2 = b.toNat := by omega
    have hhigh : (b.toNat + 2 * lsbVal t) / 2 = lsbVal t := by omega
    rw [lsbVal_cons, val_cons, List.length_cons, rev, hlow, hhigh, ih]

theorem State.decodeIndex_of_msb {s : State} {c : CursorId} (h : (s.cursor c).reportsMsb = true) :
    s.decodeIndex c = (s.cursor c).peek s.params.P :=
  if_pos h

theorem State.decodeIndex_of_lsb {s : State} {c : CursorId} (h : (s.cursor c).reportsMsb = false) :
    s.decodeIndex c = rev s.params.P ((s.cursor c).peek s.params.P) :=
  if_neg (by simp [h])

/-- For a truthful cursor the index is the value of the next `P` stream bits, however it packs (R89). -/
theorem State.decodeIndex_of_truthful {s : State} {c : CursorId} (h : (s.cursor c).Truthful) :
    s.decodeIndex c = val ((s.cursor c).next s.params.P) := by
  cases hmsb : (s.cursor c).msb with
  | true => rw [State.decodeIndex_of_msb (h.trans hmsb), Cursor.peek_of_msb hmsb]
  | false =>
    have hrev := rev_lsbVal ((s.cursor c).next s.params.P)
    rw [Cursor.next, Cursor.length_bitsFrom] at hrev
    rw [State.decodeIndex_of_lsb (h.trans hmsb), Cursor.peek_of_lsb hmsb, Cursor.next, hrev]

/-- Settles O24: one lemma for each clause. -/
theorem tableIndexIsTheValueOfTheStreamBits : Obligations.TableIndexIsTheValueOfTheStreamBits :=
  fun s c => ⟨State.decodeIndex_of_msb, State.decodeIndex_of_lsb, State.decodeIndex_of_truthful, s.decodeIndex_lt c⟩

/-- A bit shifted into a 32-bit pattern: in its place, or dropped (R140). -/
theorem toNat_shiftedBit (bit : Bool) (n : Nat) :
    ((BitVec.ofBool bit).setWidth 32 <<< n).toNat = if n < 32 then bit.toNat <<< n else 0 := by
  split
  next hn =>
    have hbit : bit.toNat <<< n < 2 ^ 32 := by
      calc bit.toNat <<< n = bit.toNat * 2 ^ n := Nat.shiftLeft_eq _ _
        _ ≤ 1 * 2 ^ n := Nat.mul_le_mul_right _ (Bool.toNat_le_one_of bit)
        _ = 2 ^ n := Nat.one_mul _
        _ < 2 ^ 32 := Nat.pow_lt_pow_right (by decide) hn
    have hval : ((BitVec.ofBool bit).setWidth 32).toNat = bit.toNat := by cases bit <;> rfl
    rw [BitVec.toNat_shiftLeft, hval, Nat.mod_eq_of_lt hbit]
  next hn =>
    rw [BitVec.shiftLeft_eq_zero (Nat.le_of_not_lt hn)]
    rfl

/-- Settles O25: the appended bit stands in its place or is dropped, and either way the rest of the code stays. -/
theorem builderAppendDropsBitsAboveThirtyOne : Obligations.BuilderAppendDropsBitsAboveThirtyOne := by
  refine fun bit r => ⟨rfl, rfl, ?_⟩
  rw [TableRow.append, BitVec.toNat_or, toNat_shiftedBit]
  split
  · rfl
  · rw [Nat.or_zero]

end Sys2Proof.Machine
end

section
/-!
The family 40_build_table.md: the checks of `BUILD_TABLE` (R113, R114), the tables without a meaning (R8, R112), and the
book that the rows make (R115 to R118).
-/

namespace Sys2Proof.Machine

/-! ## The effective maximum (R87, R113) -/

theorem foldr_max_length_le {rows : List TableRow} {n : Nat} :
    rows.foldr (fun r m => max r.length m) 0 ≤ n ↔ ∀ r ∈ rows, r.length ≤ n := by
  induction rows with
  | nil => simp
  | cons r rows ih => simp [ih]

/-- The maximum that R113 describes is the one the command uses. -/
theorem IsEffectiveMax.effectiveMax_eq {maxLength ml : Nat} {rows : List TableRow}
    (h : IsEffectiveMax maxLength rows ml) : effectiveMax maxLength rows = ml := by
  unfold effectiveMax
  split
  next hgiven => exact (h.given hgiven).symm
  next hzero =>
    obtain ⟨⟨r, hr, rfl⟩, hle⟩ := h.derived (not_not.1 hzero)
    exact Nat.le_antisymm (foldr_max_length_le.2 hle) (foldr_max_length_le.1 le_rfl r hr)

/-! ## The checks (R114) -/

theorem PassesChecks.tableError_eq_none {maxLength ml : Nat} {rows : List TableRow}
    (h : PassesChecks maxLength rows ml) : tableError maxLength rows = none := by
  rw [Machine.tableError_eq_none, h.isMax.effectiveMax_eq]
  exact ⟨h.nonempty, h.bound, h.within, h.positive⟩

section Checks
variable {maxLength : Nat} {rows : List TableRow}

theorem tableError_nil : tableError maxLength [] = some .emptyAlphabet := rfl

theorem tableError_of_max_above (hne : rows ≠ []) (hmax : lmax < effectiveMax maxLength rows) :
    tableError maxLength rows = some .lengthOverflow := by
  simp [tableError, hne, hmax]

theorem tableError_of_length_above (hne : rows ≠ []) (hmax : effectiveMax maxLength rows ≤ lmax)
    (hlong : ∃ r ∈ rows, effectiveMax maxLength rows < r.length) :
    tableError maxLength rows = some .lengthOverflow := by
  simp [tableError, hne, hmax.not_gt, hlong]

theorem tableError_of_length_zero (hne : rows ≠ []) (hmax : effectiveMax maxLength rows ≤ lmax)
    (hle : ∀ r ∈ rows, r.length ≤ effectiveMax maxLength rows) (hzero : ∃ r ∈ rows, r.length = 0) :
    tableError maxLength rows = some .zeroLength := by
  have hnone : ¬ ∃ r ∈ rows, effectiveMax maxLength rows < r.length := fun ⟨r, hr, hlt⟩ => hlt.not_ge (hle r hr)
  simp [tableError, hne, hmax.not_gt, hnone, hzero]

end Checks

/-- There is a row for each entry (R82). -/
@[simp] theorem length_tableRows (t : TableOperand) : (tableRows t).length = t.count := by
  cases t with
  | indexed es => simp [tableRows, indexedRows_eq_map, TableOperand.count]
  | named es => simp [tableRows, TableOperand.count]

theorem tableRows_ne_nil {t : TableOperand} (h : 0 < t.count) : tableRows t ≠ [] :=
  List.ne_nil_of_length_pos (by rwa [length_tableRows])

/-! ## What `BUILD_TABLE` does with its rows (R8, R112, R118, R119) -/

theorem exec_buildTable_overCapacity {s : State} {t : TableOperand} (h : s.params.nmax.toNat < t.count)
    (maxLength : Byte) : exec (.buildTable maxLength t) s = .refused .overCapacity :=
  if_pos h

theorem exec_buildTable_withinCapacity {s : State} {t : TableOperand} (h : t.count ≤ s.params.nmax.toNat)
    (maxLength : Byte) : exec (.buildTable maxLength t) s = s.buildEntries maxLength.toNat (tableRows t) :=
  if_neg h.not_gt

/-- A failed check comes before the question whether the entries have a meaning (R112, R114). -/
theorem State.buildEntries_of_error {maxLength : Nat} {rows : List TableRow} {e : EngineError}
    (h : tableError maxLength rows = some e) (s : State) :
    s.buildEntries maxLength rows = .next (s.loseBook.respond (.error e)) := by
  have hentered : tableError maxLength (enteredRows s.params rows) = some e := by rwa [tableError_enteredRows]
  rw [State.buildEntries, hentered, if_neg (by simp), State.build, hentered,
    ← s.raise_build (tableError_isBuildError h)]

theorem State.buildEntries_of_wellFormed {s : State} {maxLength : Nat} {rows : List TableRow}
    (h : tableError maxLength rows = none) (hwell : wellFormedRows s.params rows = true) :
    s.buildEntries maxLength rows =
      .next (s.install (populate s.params.P (effectiveMax maxLength rows) (enteredRows s.params rows))) := by
  have hentered : tableError maxLength (enteredRows s.params rows) = none := by rwa [tableError_enteredRows]
  rw [State.buildEntries, if_neg (by simp [hwell]), State.build, hentered, effectiveMax_enteredRows]

theorem buildTable_fails {s : State} {maxLength : Byte} {t : TableOperand} {e : EngineError}
    (hcap : t.count ≤ s.params.nmax.toNat) (he : tableError maxLength.toNat (tableRows t) = some e) :
    BuildFails (.buildTable maxLength t) s e := by
  refine ⟨s.loseBook.respond (.error e), ?_, rfl, rfl, rfl, rfl, rfl, rfl⟩
  rw [exec_buildTable_withinCapacity hcap, State.buildEntries_of_error he]

/-- Settles O27: the first check that fails is the answer of `tableError`, and any answer of it fails the build. -/
theorem buildTableChecksInOrder : Obligations.BuildTableChecksInOrder := by
  intro s maxLength t hcap
  refine ⟨fun hcount => buildTable_fails hcap ?_, fun ml hcount hml => ?_⟩
  · have hnil : tableRows t = [] := List.eq_nil_of_length_eq_zero (by rwa [length_tableRows])
    rw [hnil, tableError_nil]
  · have hne := tableRows_ne_nil hcount
    obtain rfl := hml.effectiveMax_eq
    exact ⟨fun hmax => buildTable_fails hcap (tableError_of_max_above hne hmax),
      fun hmax hlong => buildTable_fails hcap (tableError_of_length_above hne hmax hlong),
      fun hmax hle hzero => buildTable_fails hcap (tableError_of_length_zero hne hmax hle hzero)⟩

/-! ## Well-formed rows are those of W1 and W2 (R112) -/

/-- W2 for one pair of rows: wherever both cover an index, they say the same. -/
def AgreeWhereShared (P : Nat) (r q : TableRow) : Prop :=
  ∀ j, Covers P r j → Covers P q j → r.symbol = q.symbol ∧ r.length = q.length

theorem W2_iff {P : Nat} {rows : List TableRow} :
    W2 P rows ↔ ∀ r ∈ rows, ∀ q ∈ rows, AgreeWhereShared P r q :=
  Iff.rfl

theorem AgreeWhereShared.refl (P : Nat) (r : TableRow) : AgreeWhereShared P r r := fun _ _ _ => ⟨rfl, rfl⟩

theorem AgreeWhereShared.symm {P : Nat} {r q : TableRow} (h : AgreeWhereShared P r q) : AgreeWhereShared P q r :=
  fun j hq hr => (h j hr hq).imp Eq.symm Eq.symm

/-- W2 need be asked of each pair once, as `noConflict` does. -/
theorem W2_cons {P : Nat} {r : TableRow} {rows : List TableRow} :
    W2 P (r :: rows) ↔ (∀ q ∈ rows, AgreeWhereShared P r q) ∧ W2 P rows := by
  simp only [W2_iff, List.forall_mem_cons]
  constructor
  · rintro ⟨⟨-, hr⟩, hrows⟩
    exact ⟨hr, fun q hq => (hrows q hq).2⟩
  · rintro ⟨hr, hrows⟩
    exact ⟨⟨.refl P r, hr⟩, fun q hq => ⟨(hr q hq).symm, hrows q hq⟩⟩

/-- Two ranges meet when they share an index: the greater of the two starts. -/
theorem rangesMeet_iff {P : Nat} {r q : TableRow} : rangesMeet P r q = true ↔
    ∃ j, (fillStart P r ≤ j ∧ j < fillStart P r + fillCount P r) ∧
      (fillStart P q ≤ j ∧ j < fillStart P q + fillCount P q) := by
  have hr : 0 < fillCount P r := Nat.two_pow_pos _
  have hq : 0 < fillCount P q := Nat.two_pow_pos _
  rw [rangesMeet, Bool.and_eq_true, decide_eq_true_eq, decide_eq_true_eq]
  constructor
  · rintro ⟨hrq, hqr⟩
    exact ⟨max (fillStart P r) (fillStart P q), by omega, by omega⟩
  · rintro ⟨j, hj, hj'⟩
    omega

/-- The row may be recorded in a book of maximum `ml`: its length is legal (R114) and its code lies in it (W1). -/
structure TableRow.Recordable (ml : Nat) (r : TableRow) : Prop where
  pos : 1 ≤ r.length
  le : r.length ≤ ml
  fits : r.code.toNat < 2 ^ r.length

/-- A row covers its fill range, where it is short enough for the table (R88). -/
theorem TableRow.Recordable.covers_iff {P ml : Nat} {r : TableRow} (hr : r.Recordable ml) {j : Nat} :
    Covers P r j ↔ r.length ≤ P ∧ fillStart P r ≤ j ∧ j < fillStart P r + fillCount P r := by
  constructor
  · intro h
    exact ⟨h.1, (fillRangeIsTheIndicesWithTheCodeOnTop P r hr.pos h.1 hr.fits j).2 h⟩
  · rintro ⟨hle, hj⟩
    exact (fillRangeIsTheIndicesWithTheCodeOnTop P r hr.pos hle hr.fits j).1 hj

theorem agree_iff {P ml : Nat} {r q : TableRow} (hr : r.Recordable ml) (hq : q.Recordable ml) :
    agree P r q = true ↔ AgreeWhereShared P r q := by
  have hshared : (r.length ≤ P ∧ q.length ≤ P ∧ rangesMeet P r q = true) ↔ ∃ j, Covers P r j ∧ Covers P q j := by
    simp only [hr.covers_iff, hq.covers_iff, rangesMeet_iff]
    constructor
    · rintro ⟨hrP, hqP, j, hj, hj'⟩
      exact ⟨j, ⟨hrP, hj⟩, hqP, hj'⟩
    · rintro ⟨j, ⟨hrP, hj⟩, hqP, hj'⟩
      exact ⟨hrP, hqP, j, hj, hj'⟩
  unfold agree
  split
  next h =>
    obtain ⟨j, hj, hj'⟩ := hshared.1 h
    rw [Bool.and_eq_true, decide_eq_true_eq, decide_eq_true_eq]
    exact ⟨fun hsame _ _ _ => hsame, fun hsame => hsame j hj hj'⟩
  next h => exact ⟨fun _ j hj hj' => absurd (hshared.2 ⟨j, hj, hj'⟩) h, fun _ => rfl⟩

theorem noConflict_iff {P ml : Nat} {rows : List TableRow} (hrows : ∀ r ∈ rows, r.Recordable ml) :
    noConflict P rows = true ↔ W2 P rows := by
  induction rows with
  | nil => simp [noConflict, W2]
  | cons r rows ih =>
    obtain ⟨hr, hrest⟩ := List.forall_mem_cons.1 hrows
    rw [noConflict, Bool.and_eq_true, List.all_eq_true, ih hrest, W2_cons]
    exact and_congr_left' (forall₂_congr fun q hq => agree_iff hr (hrest q hq))

/-- Entry keeps W1: reversal leaves a code within its length (D9). -/
theorem W1.entered {rows : List TableRow} (h : W1 rows) (p : Params) : W1 (enteredRows p rows) := by
  cases hrev : p.lsbCodesReversed with
  | false => rwa [enteredRows_off hrev]
  | true =>
    rw [enteredRows_on hrev, W1, List.forall_mem_map]
    exact fun r _ => r.reversed_code_lt

theorem PassesChecks.recordable {maxLength ml : Nat} {rows : List TableRow} (h : PassesChecks maxLength rows ml)
    (hW1 : W1 rows) : ∀ r ∈ rows, r.Recordable ml :=
  fun r hr => ⟨Nat.one_le_iff_ne_zero.2 (h.positive r hr), h.within r hr, hW1 r hr⟩

/-- Of rows that pass the checks, the model asks W1 as supplied and W2 as entered (log 16). -/
theorem wellFormedRows_iff {p : Params} {rows : List TableRow} {maxLength ml : Nat}
    (h : PassesChecks maxLength (enteredRows p rows) ml) :
    wellFormedRows p rows = true ↔ W1 rows ∧ W2 p.P (enteredRows p rows) := by
  have hfits : rows.all TableRow.fits = true ↔ W1 rows := by simp [W1, TableRow.fits]
  rw [wellFormedRows, Bool.and_eq_true, hfits]
  exact and_congr_right fun hW1 => noConflict_iff (h.recordable (hW1.entered p))

/-- Settles O28: above capacity the rows are not looked at; within it, a table that passes the checks must be well
formed. -/
theorem buildTableIsRefusedWithoutMeaning : Obligations.BuildTableIsRefusedWithoutMeaning := by
  intro s maxLength t
  refine ⟨fun hover => exec_buildTable_overCapacity hover maxLength, fun ml hcap hpass hbreaks => ?_⟩
  have hok := hpass.tableError_eq_none
  rw [tableError_enteredRows] at hok
  rw [exec_buildTable_withinCapacity hcap, State.buildEntries_refused]
  exact ⟨hok, by rwa [← Bool.not_eq_true, wellFormedRows_iff hpass]⟩

/-! ## The book that the rows make (R115 to R118) -/

section AddRow
variable {P ml : Nat} {b : CodeBook} {r : TableRow}

/-- At an index that a row covers, recording it leaves the row's entry (R116). -/
theorem CodeBook.entry_addRow_of_covers (hpt : b.pt.length = 2 ^ P) (hr : r.Recordable ml) {j : Nat}
    (hj : Covers P r j) : (b.addRow P r).entry j = .hit r.symbol r.length := by
  obtain ⟨hle, hrange⟩ := hr.covers_iff.1 hj
  obtain ⟨-, hlt, -⟩ := hj
  rw [← hpt] at hlt
  rw [CodeBook.addRow, if_pos hle, CodeBook.entry, List.getD_eq_getElem?_getD, getElem?_fillRange,
    List.getElem?_eq_getElem hlt]
  simp [hrange]

/-- Every other index is as it was (R116). -/
theorem CodeBook.entry_addRow_of_not_covers (hr : r.Recordable ml) {j : Nat} (hj : ¬ Covers P r j) :
    (b.addRow P r).entry j = b.entry j := by
  unfold CodeBook.addRow
  split
  next hle =>
    have hrange : ¬ (fillStart P r ≤ j ∧ j < fillStart P r + fillCount P r) := fun h => hj (hr.covers_iff.2 ⟨hle, h⟩)
    simp [CodeBook.entry, List.getD_eq_getElem?_getD, getElem?_fillRange, hrange]
  next => rfl

/-- A row goes to the end of the bucket of its length, if there is one, and to no other (R117). -/
theorem CodeBook.bucket_addRow (hbk : b.bk.length = ml - P) (hle : r.length ≤ ml) (i : Nat) :
    (b.addRow P r).bucket i =
      b.bucket i ++ if r.length = P + 1 + i then [{ code := r.code, symbol := r.symbol }] else [] := by
  unfold CodeBook.addRow
  split
  next hshort => rw [if_neg (by omega), List.append_nil]; rfl
  next hlong =>
    simp only [CodeBook.bucket, List.getD_eq_getElem?_getD, List.getElem?_modify]
    by_cases hi : r.length = P + 1 + i
    · have hlt : i < b.bk.length := by omega
      have hnum : bucketNumber P r.length = i := by unfold bucketNumber; omega
      simp [if_pos hi, hlt, hnum]
    · have hnum : bucketNumber P r.length ≠ i := by unfold bucketNumber; omega
      simp [hi, hnum]

end AddRow

theorem BookOf.empty (P ml : Nat) : BookOf P ml [] (CodeBook.empty P ml) where
  maxLen := rfl
  pt_length := List.length_replicate
  covered r hr := by simp at hr
  uncovered j _ := CodeBook.entry_empty P ml j
  bk_length := List.length_replicate
  buckets i := CodeBook.bucket_empty P ml i

/-- Recording one more row makes the book of one more row, where it agrees with those recorded: an index it overwrites
then keeps its entry. -/
theorem BookOf.addRow {P ml : Nat} {rows : List TableRow} {b : CodeBook} (hb : BookOf P ml rows b) {r : TableRow}
    (hr : r.Recordable ml) (hagree : ∀ q ∈ rows, AgreeWhereShared P q r) :
    BookOf P ml (rows ++ [r]) (b.addRow P r) where
  maxLen := by rw [addRow_maxLen, hb.maxLen]
  pt_length := by rw [addRow_pt_length, hb.pt_length]
  covered q hq j hj := by
    by_cases hrj : Covers P r j
    · rw [CodeBook.entry_addRow_of_covers hb.pt_length hr hrj]
      rcases List.mem_append.1 hq with hq | hq
      · obtain ⟨hsymbol, hlength⟩ := hagree q hq j hj hrj
        rw [hsymbol, hlength]
      · rw [List.mem_singleton.1 hq]
    · rw [CodeBook.entry_addRow_of_not_covers hr hrj]
      rcases List.mem_append.1 hq with hq | hq
      · exact hb.covered q hq j hj
      · exact absurd (List.mem_singleton.1 hq ▸ hj) hrj
  uncovered j hj := by
    rw [CodeBook.entry_addRow_of_not_covers hr (hj r (by simp))]
    exact hb.uncovered j fun q hq => hj q (List.mem_append_left _ hq)
  bk_length := by rw [addRow_bk_length, hb.bk_length]
  buckets i := by
    rw [CodeBook.bucket_addRow hb.bk_length hr.le, hb.buckets, List.filter_append, List.map_append]
    by_cases hi : r.length = P + 1 + i <;> simp [hi]

/-- Population makes the book of its rows, by recording them in order (R118). -/
theorem populate_bookOf {P ml : Nat} {rows : List TableRow} (hrows : ∀ r ∈ rows, r.Recordable ml)
    (hW2 : W2 P rows) : BookOf P ml rows (populate P ml rows) := by
  induction rows using List.reverseRecOn with
  | nil => exact .empty P ml
  | append_singleton rows r ih =>
    have hmem : ∀ q ∈ rows, q ∈ rows ++ [r] := fun q hq => List.mem_append_left _ hq
    have hlast : r ∈ rows ++ [r] := by simp
    have hinit := ih (fun q hq => hrows q (hmem q hq)) fun q hq q' hq' => hW2 q (hmem q hq) q' (hmem q' hq')
    rw [populate, List.foldl_append]
    exact hinit.addRow (hrows r hlast) fun q hq => hW2 q (hmem q hq) r hlast

/-- Settles O26: a well-formed table that passes the checks is populated, and nothing but the book is written. -/
theorem buildTableMakesTheBook : Obligations.BuildTableMakesTheBook := by
  intro s maxLength t ml hcap hpass hW1 hW2
  have hok := hpass.tableError_eq_none
  have hmax := hpass.isMax.effectiveMax_eq
  rw [tableError_enteredRows] at hok
  rw [effectiveMax_enteredRows] at hmax
  refine ⟨s.install (populate s.params.P ml (enteredRows s.params (tableRows t))), ?_, rfl, rfl,
    populate_bookOf (hpass.recordable (hW1.entered s.params)) hW2, rfl, rfl, rfl, rfl, rfl⟩
  rw [exec_buildTable_withinCapacity hcap,
    State.buildEntries_of_wellFormed hok ((wellFormedRows_iff hpass).2 ⟨hW1, hW2⟩), hmax]

end Sys2Proof.Machine
end

section
/-!
The family 41_build_freq.md: the selection scan (R134, R135).
-/

namespace Sys2Proof.Machine

/-! ## The least node at some positions -/

/-- What the scan has to find among the nodes at some positions: the lowest-positioned of those with the smallest
non-zero frequency, and nothing exactly when all are zero (R135). -/
def FirstLeast (ns : List Node) (among : Nat → Prop) : Option Pick → Prop
  | none => ∀ k n, among k → ns[k]? = some n → n.freq = 0
  | some p => among p.position ∧ ns[p.position]? = some p.node ∧ p.node.freq ≠ 0 ∧
      ∀ k n, among k → ns[k]? = some n → n.freq ≠ 0 →
        p.node.freq ≤ n.freq ∧ (k < p.position → p.node.freq < n.freq)

theorem getElem?_concat_eq_some {α : Type} {ns : List α} {n m : α} {k : Nat} :
    (ns ++ [n])[k]? = some m ↔ ns[k]? = some m ∨ (k = ns.length ∧ m = n) := by
  rcases Nat.lt_trichotomy k ns.length with hlt | rfl | hgt
  · simp [List.getElem?_append_left hlt, hlt.ne]
  · simp [eq_comm]
  · have hsub : k - ns.length ≠ 0 := Nat.sub_ne_zero_of_lt hgt
    simp [List.getElem?_append_right hgt.le, hsub, hgt.le, hgt.ne']

section FirstLeast
variable {ns : List Node} {among among' : Nat → Prop} {o : Option Pick} {n : Node}

theorem FirstLeast.position_lt {p : Pick} (h : FirstLeast ns among (some p)) : p.position < ns.length := by
  obtain ⟨-, hp, -, -⟩ := h
  exact (List.getElem?_eq_some_iff.1 hp).1

/-- Only the positions of the list count. -/
theorem FirstLeast.congr (h : FirstLeast ns among o) (heq : ∀ k, k < ns.length → (among k ↔ among' k)) :
    FirstLeast ns among' o := by
  have hback : ∀ k m, among' k → ns[k]? = some m → among k := fun k m hk hm =>
    (heq k (List.getElem?_eq_some_iff.1 hm).1).2 hk
  cases o with
  | none => exact fun k m hk hm => h k m (hback k m hk hm) hm
  | some p =>
    obtain ⟨hamong, hp, hpos, hleast⟩ := h
    exact ⟨(heq p.position (List.getElem?_eq_some_iff.1 hp).1).1 hamong, hp, hpos,
      fun k m hk hm => hleast k m (hback k m hk hm) hm⟩

/-- A node that is not asked, is zero, or does not beat the choice so far leaves it (strict comparison, R134). -/
theorem FirstLeast.concat_of_not_beats (h : FirstLeast ns among o)
    (hn : among ns.length → n.freq ≠ 0 → beats n.freq o = false) : FirstLeast (ns ++ [n]) among o := by
  cases o with
  | none =>
    intro k m hk hm
    rcases getElem?_concat_eq_some.1 hm with hm | ⟨rfl, rfl⟩
    · exact h k m hk hm
    · by_contra hne
      exact Bool.noConfusion (hn hk hne)
  | some p =>
    have hlt := h.position_lt
    obtain ⟨hamong, hp, hpos, hleast⟩ := h
    refine ⟨hamong, getElem?_concat_eq_some.2 (.inl hp), hpos, fun k m hk hm hne => ?_⟩
    rcases getElem?_concat_eq_some.1 hm with hm | ⟨rfl, rfl⟩
    · exact hleast k m hk hm hne
    · exact ⟨Nat.le_of_not_lt (of_decide_eq_false (hn hk hne)), fun hk' => absurd hk' hlt.not_gt⟩

/-- A non-zero node that beats the choice so far is the new choice. -/
theorem FirstLeast.concat_of_beats (h : FirstLeast ns among o) (hamong : among ns.length) (hpos : n.freq ≠ 0)
    (hbeats : beats n.freq o = true) : FirstLeast (ns ++ [n]) among (some ⟨ns.length, n⟩) := by
  have hless : ∀ k m, among k → ns[k]? = some m → m.freq ≠ 0 → n.freq < m.freq := fun k m hk hm hne => by
    cases o with
    | none => exact absurd (h k m hk hm) hne
    | some p =>
      obtain ⟨-, -, -, hleast⟩ := h
      exact (of_decide_eq_true hbeats).trans_le (hleast k m hk hm hne).1
  refine ⟨hamong, getElem?_concat_eq_some.2 (.inr ⟨rfl, rfl⟩), hpos, fun k m hk hm hne => ?_⟩
  rcases getElem?_concat_eq_some.1 hm with hm | ⟨rfl, rfl⟩
  · exact ⟨(hless k m hk hm hne).le, fun _ => hless k m hk hm hne⟩
  · exact ⟨le_rfl, fun hk' => absurd hk' (Nat.lt_irrefl _)⟩

end FirstLeast

/-! ## The two choices -/

/-- Position `k` remains when `first` is set aside. -/
def Picks.Remains (w : Picks) (k : Nat) : Prop := ∀ p, w.first = some p → k ≠ p.position

/-- The two choices are those of R135. -/
structure Picks.Correct (ns : List Node) (w : Picks) : Prop where
  first : FirstLeast ns (fun _ => True) w.first
  second : FirstLeast ns w.Remains w.second

/-- Considering the next node keeps the choices right: it is passed over, or it is the new `first` and the old one is
handed down, or it is the new `second` (R134). -/
theorem Picks.Correct.consider {ns : List Node} {w : Picks} (h : w.Correct ns) (n : Node) :
    (w.consider ns.length n).Correct (ns ++ [n]) := by
  obtain ⟨hfirst, hsecond⟩ := h
  unfold Picks.consider
  split
  next hzero =>
    exact ⟨hfirst.concat_of_not_beats fun _ hne => absurd hzero hne,
      hsecond.concat_of_not_beats fun _ hne => absurd hzero hne⟩
  next hpos =>
  split
  next hbeats =>
    have hremains : ∀ k, Picks.Remains { first := some ⟨ns.length, n⟩, second := w.first } k ↔
        k ≠ ns.length := fun k => by simp [Picks.Remains]
    refine ⟨hfirst.concat_of_beats trivial hpos hbeats, FirstLeast.concat_of_not_beats ?_ ?_⟩
    · exact hfirst.congr fun k hk => iff_of_true trivial ((hremains k).2 hk.ne)
    · exact fun hlen => absurd rfl ((hremains _).1 hlen)
  next hfirst' =>
    have hfirst'' := hfirst.concat_of_not_beats (n := n) fun _ _ => by simpa using hfirst'
    split
    next hbeats =>
      have hlen : w.Remains ns.length := fun p hp => (FirstLeast.position_lt (hp ▸ hfirst)).ne'
      exact ⟨hfirst'', hsecond.concat_of_beats hlen hpos hbeats⟩
    next hsecond' => exact ⟨hfirst'', hsecond.concat_of_not_beats fun _ _ => by simpa using hsecond'⟩

theorem scanFrom_concat (w : Picks) (k : Nat) (ns : List Node) (n : Node) :
    scanFrom w k (ns ++ [n]) = (scanFrom w k ns).consider (k + ns.length) n := by
  induction ns generalizing w k with
  | nil => rfl
  | cons m ns ih => simp [scanFrom, ih, Nat.add_assoc, Nat.add_comm 1]

theorem scan_concat (ns : List Node) (n : Node) : scan (ns ++ [n]) = (scan ns).consider ns.length n := by
  rw [scan, scanFrom_concat, Nat.zero_add]
  rfl

/-- The scan considers the nodes in order, so its choices are right after each. -/
theorem scan_correct (ns : List Node) : (scan ns).Correct ns := by
  induction ns using List.reverseRecOn with
  | nil => exact ⟨fun k n _ h => by simp at h, fun k n _ h => by simp at h⟩
  | append_singleton ns n ih =>
    rw [scan_concat]
    exact ih.consider n

/-- Settles O32: the two choices are right, and a second one presupposes a first. -/
theorem scanSelectsTheTwoSmallest : Obligations.ScanSelectsTheTwoSmallest := by
  intro ns
  have ⟨hfirst, hsecond⟩ := scan_correct ns
  cases hf : (scan ns).first with
  | none =>
    rw [hf] at hfirst
    have hzero : ∀ n ∈ ns, n.freq = 0 := fun n hn => by
      obtain ⟨k, hk⟩ := List.mem_iff_getElem?.1 hn
      exact hfirst k n trivial hk
    have hnone : (scan ns).second = none := by
      cases hs : (scan ns).second with
      | none => rfl
      | some q =>
        rw [hs] at hsecond
        obtain ⟨-, hq, hpos, -⟩ := hsecond
        exact absurd (hfirst q.position q.node trivial hq) hpos
    exact ⟨iff_of_true rfl hzero, nofun, fun _ => hnone, nofun, nofun⟩
  | some p =>
    rw [hf] at hfirst
    obtain ⟨-, hp, hpos, hleast⟩ := hfirst
    have hremains : ∀ k, (scan ns).Remains k ↔ k ≠ p.position := fun k => by simp [Picks.Remains, hf]
    refine ⟨iff_of_false nofun fun h => hpos (h _ (List.mem_of_getElem? hp)), ?_, nofun, ?_, ?_⟩
    · rintro _ ⟨⟩
      exact ⟨hp, hpos, fun k n => hleast k n trivial⟩
    · rintro _ ⟨⟩ hs k n hk
      rw [hs] at hsecond
      exact hsecond k n ((hremains k).2 hk)
    · rintro _ q ⟨⟩ hs
      rw [hs] at hsecond
      obtain ⟨hq, hget, hqpos, hqleast⟩ := hsecond
      exact ⟨(hremains _).1 hq, hget, hqpos, fun k n hk => hqleast k n ((hremains k).2 hk)⟩

end Sys2Proof.Machine
end

section
/-!
The family 41_build_freq.md: the merge loop (R133, R136, R137, R139).
-/

namespace Sys2Proof.Machine

/-! ## The nodes that are not retired (R137) -/

/-- The nodes the scan can still select. -/
def liveNodes (ns : List Node) : List Node := ns.filter fun n => decide (n.freq ≠ 0)

theorem mem_liveNodes {ns : List Node} {n : Node} : n ∈ liveNodes ns ↔ n ∈ ns ∧ n.freq ≠ 0 := by
  simp [liveNodes]

theorem liveNodes_append (ns ms : List Node) : liveNodes (ns ++ ms) = liveNodes ns ++ liveNodes ms :=
  List.filter_append ns ms

theorem liveNodes_eq_nil {ns : List Node} : liveNodes ns = [] ↔ ∀ n ∈ ns, n.freq = 0 := by
  simp [liveNodes]

theorem liveNodes_singleton {n : Node} (h : n.freq ≠ 0) : liveNodes [n] = [n] := by
  simp [liveNodes, h]

/-- Retiring a live node takes it, and it alone, out of the live ones. -/
theorem liveNodes_perm_retire {ns : List Node} {k : Nat} {n : Node} (hk : ns[k]? = some n) (hn : n.freq ≠ 0) :
    (liveNodes ns).Perm (n :: liveNodes (ns.modify k Node.retire)) := by
  induction ns generalizing k with
  | nil => simp at hk
  | cons m ns ih =>
    cases k with
    | zero =>
      obtain rfl : m = n := by simpa using hk
      simp [liveNodes, hn, Node.retire]
    | succ k =>
      have htail := ih (by simpa using hk)
      by_cases hm : m.freq = 0
      · simpa [liveNodes, hm] using htail
      · simpa [liveNodes, hm] using (htail.cons m).trans (.swap n m _)

/-- Two live nodes stand at different positions, as `first` and `second` do. -/
structure Selected (ns : List Node) (a b : Pick) : Prop where
  ne : b.position ≠ a.position
  first : ns[a.position]? = some a.node
  second : ns[b.position]? = some b.node
  first_live : a.node.freq ≠ 0
  second_live : b.node.freq ≠ 0

/-- Retiring both leaves the other live nodes. -/
theorem Selected.liveNodes_perm {ns : List Node} {a b : Pick} (h : Selected ns a b) :
    (liveNodes ns).Perm (a.node :: b.node ::
      liveNodes ((ns.modify a.position Node.retire).modify b.position Node.retire)) := by
  have hsecond : (ns.modify a.position Node.retire)[b.position]? = some b.node := by
    simp [h.ne.symm, h.second]
  exact (liveNodes_perm_retire h.first h.first_live).trans
    ((liveNodes_perm_retire hsecond h.second_live).cons a.node)

/-- The scan finds no second node when at most one is live, and two live nodes otherwise (R135, R136). -/
theorem scan_cases (ns : List Node) : ((scan ns).second = none ∧ (liveNodes ns).length ≤ 1) ∨
    ∃ a b, (scan ns).first = some a ∧ (scan ns).second = some b ∧ Selected ns a b := by
  obtain ⟨hnone, hfirst, hnone', hsecond', hsecond⟩ := scanSelectsTheTwoSmallest ns
  cases hf : (scan ns).first with
  | none => exact .inl ⟨hnone' hf, by simp [liveNodes_eq_nil.2 (hnone.1 hf)]⟩
  | some a =>
    obtain ⟨hget, hpos, -⟩ := hfirst a hf
    cases hs : (scan ns).second with
    | some b =>
      obtain ⟨hne, hget', hpos', -⟩ := hsecond a b hf hs
      exact .inr ⟨a, b, rfl, rfl, hne, hget, hget', hpos, hpos'⟩
    | none =>
      have hrest : liveNodes (ns.modify a.position Node.retire) = [] := by
        refine liveNodes_eq_nil.2 fun n hn => ?_
        obtain ⟨k, hk⟩ := List.mem_iff_getElem?.1 hn
        rw [List.getElem?_modify] at hk
        by_cases hka : a.position = k
        · obtain ⟨m, -, rfl⟩ : ∃ m, ns[k]? = some m ∧ m.retire = n := by simpa [hka] using hk
          rfl
        · exact hsecond' a hf hs k n (Ne.symm hka) (by simpa [hka] using hk)
      have hlive := (liveNodes_perm_retire hget hpos).length_eq
      exact .inl ⟨rfl, by rw [hlive, hrest, List.length_singleton]⟩

/-! ## One round, and the loop (R133, R136, R137) -/

/-- The node that a merge creates (R137). -/
def Node.join (a b : Node) : Node := { freq := a.freq + b.freq, tree := .node a.tree b.tree }

@[simp] theorem Node.join_freq (a b : Node) : (a.join b).freq = a.freq + b.freq := rfl
@[simp] theorem Node.join_tree (a b : Node) : (a.join b).tree = .node a.tree b.tree := rfl

theorem Node.join_live {a : Node} (ha : a.freq ≠ 0) (b : Node) : (a.join b).freq ≠ 0 :=
  (Nat.add_pos_left (Nat.pos_of_ne_zero ha) b.freq).ne'

/-- A merge replaces two live nodes by their join. -/
theorem Work.liveNodes_merge {w : Work} {a b : Pick} (h : Selected w.nodes a b) :
    ∃ rest, (liveNodes w.nodes).Perm (a.node :: b.node :: rest) ∧
      (liveNodes (w.merge a b).nodes).Perm (a.node.join b.node :: rest) := by
  refine ⟨_, h.liveNodes_perm, ?_⟩
  rw [Work.merge, liveNodes_append, ← Node.join, liveNodes_singleton (Node.join_live h.first_live _)]
  exact List.perm_append_singleton _ _

theorem Work.length_nodes_merge (w : Work) (a b : Pick) : (w.merge a b).nodes.length = w.nodes.length + 1 := by
  simp [Work.merge]

theorem Work.getLast?_nodes_merge (w : Work) (a b : Pick) :
    (w.merge a b).nodes.getLast? = some (a.node.join b.node) := by
  simp [Work.merge, Node.join]

/-- What the loop does: it has stopped, or it merges two selected nodes and goes on. -/
theorem Work.rounds_cases (w : Work) (k : Nat) :
    ((scan w.nodes).second = none ∧ (liveNodes w.nodes).length ≤ 1 ∧ w.rounds k = w) ∨
    ∃ a b, Selected w.nodes a b ∧ ∀ j, w.rounds (j + 1) = (w.merge a b).rounds j := by
  rcases scan_cases w.nodes with ⟨hs, hlive⟩ | ⟨a, b, hf, hs, hsel⟩
  · refine .inl ⟨hs, hlive, ?_⟩
    cases k <;> simp [Work.rounds, hs]
  · exact .inr ⟨a, b, hsel, fun j => by simp [Work.rounds, hf, hs]⟩

/-- What every merge keeps, the loop keeps. -/
theorem Work.rounds_induction {I : Work → Prop}
    (hmerge : ∀ w a b, Selected w.nodes a b → I w → I (w.merge a b)) {w : Work} (hw : I w) (k : Nat) :
    I (w.rounds k) := by
  induction k generalizing w with
  | zero => exact hw
  | succ k ih =>
    rcases w.rounds_cases (k + 1) with ⟨-, -, hstop⟩ | ⟨a, b, hsel, hround⟩
    · rwa [hstop]
    · rw [hround]
      exact ih (hmerge w a b hsel hw)

/-- A round takes one live node away, so `k` rounds are enough for `k + 1` of them (R136). -/
theorem Work.rounds_stops {w : Work} {k : Nat} (h : (liveNodes w.nodes).length ≤ k + 1) :
    (scan (w.rounds k).nodes).second = none ∧ (liveNodes (w.rounds k).nodes).length ≤ 1 := by
  induction k generalizing w with
  | zero =>
    rcases w.rounds_cases 0 with ⟨hs, hlive, -⟩ | ⟨a, b, hsel, -⟩
    · exact ⟨hs, hlive⟩
    · have hlen := hsel.liveNodes_perm.length_eq
      simp only [List.length_cons] at hlen
      omega
  | succ k ih =>
    rcases w.rounds_cases (k + 1) with ⟨hs, hlive, hstop⟩ | ⟨a, b, hsel, hround⟩
    · rw [hstop]
      exact ⟨hs, hlive⟩
    · obtain ⟨rest, hbefore, hafter⟩ := Work.liveNodes_merge hsel
      have hlen := hbefore.length_eq
      have hlen' := hafter.length_eq
      simp only [List.length_cons] at hlen hlen'
      rw [hround]
      exact ih (by omega)

/-! ## What the loop keeps of its nodes -/

/-- A round adds one node and takes one live node away. -/
theorem Work.length_nodes_rounds (w : Work) (k : Nat) :
    (w.rounds k).nodes.length + (liveNodes (w.rounds k).nodes).length =
      w.nodes.length + (liveNodes w.nodes).length := by
  refine Work.rounds_induction
    (I := fun v => v.nodes.length + (liveNodes v.nodes).length = w.nodes.length + (liveNodes w.nodes).length)
    (fun v a b hsel hv => ?_) rfl k
  obtain ⟨rest, hbefore, hafter⟩ := Work.liveNodes_merge hsel
  have hlen := hbefore.length_eq
  have hlen' := hafter.length_eq
  simp only [List.length_cons] at hlen hlen'
  rw [Work.length_nodes_merge]
  omega

/-- A merge keeps the sum of the live frequencies (R137). -/
theorem Work.sum_freq_rounds (w : Work) (k : Nat) :
    ((liveNodes (w.rounds k).nodes).map Node.freq).sum = ((liveNodes w.nodes).map Node.freq).sum := by
  refine Work.rounds_induction
    (I := fun v => ((liveNodes v.nodes).map Node.freq).sum = ((liveNodes w.nodes).map Node.freq).sum)
    (fun v a b hsel hv => ?_) rfl k
  obtain ⟨rest, hbefore, hafter⟩ := Work.liveNodes_merge hsel
  rw [← hv, (hbefore.map Node.freq).sum_eq, (hafter.map Node.freq).sum_eq]
  simp [Nat.add_assoc]

/-- The last node is live: a merge appends its join. -/
theorem Work.getLast?_rounds {w : Work} (h : ∃ root, w.nodes.getLast? = some root ∧ root.freq ≠ 0) (k : Nat) :
    ∃ root, (w.rounds k).nodes.getLast? = some root ∧ root.freq ≠ 0 :=
  Work.rounds_induction (I := fun v => ∃ root, v.nodes.getLast? = some root ∧ root.freq ≠ 0)
    (fun v a b hsel _ => ⟨_, v.getLast?_nodes_merge a b, Node.join_live hsel.first_live _⟩) h k

/-! ## Seeding (R132) -/

/-- Leaf `i` has the frequency of pair `i` and names itself. -/
theorem seedNodes_eq_map (k : Nat) (ps : List FreqPair) :
    seedNodes k ps = (ps.zipIdx k).map fun p => { freq := p.1.freq.toNat, tree := .leaf p.2 } := by
  induction ps generalizing k with
  | nil => rfl
  | cons p ps ih => rw [seedNodes, ih, List.zipIdx_cons, List.map_cons]

@[simp] theorem length_seedNodes (k : Nat) (ps : List FreqPair) : (seedNodes k ps).length = ps.length := by
  simp [seedNodes_eq_map]

@[simp] theorem Work.seed_nodes (ps : List FreqPair) : (Work.seed ps).nodes = seedNodes 0 ps := rfl

theorem map_freq_seedNodes (k : Nat) (ps : List FreqPair) :
    (seedNodes k ps).map Node.freq = ps.map fun p => p.freq.toNat := by
  induction ps generalizing k with
  | nil => rfl
  | cons p ps ih => simp [seedNodes, ih]

theorem mem_seedNodes {ps : List FreqPair} {n : Node} :
    n ∈ seedNodes 0 ps ↔ ∃ i p, ps[i]? = some p ∧ n = { freq := p.freq.toNat, tree := .leaf i } := by
  simp only [seedNodes_eq_map, List.mem_map, Prod.exists, List.mem_zipIdx_iff_getElem?]
  exact ⟨fun ⟨p, i, hp, hn⟩ => ⟨i, p, hp, hn.symm⟩, fun ⟨i, p, hp, hn⟩ => ⟨p, i, hp, hn.symm⟩⟩

theorem toNat_freq_ne_zero {p : FreqPair} : p.freq.toNat ≠ 0 ↔ p.freq ≠ 0#32 :=
  not_congr (BitVec.toNat_eq (y := 0#32)).symm

/-- With positive frequencies every leaf is live. -/
theorem liveNodes_seedNodes {ps : List FreqPair} (hpos : AllPositive ps) :
    liveNodes (seedNodes 0 ps) = seedNodes 0 ps := by
  refine List.filter_eq_self.2 fun n hn => ?_
  obtain ⟨i, p, hp, rfl⟩ := mem_seedNodes.1 hn
  exact decide_eq_true (toNat_freq_ne_zero.2 (hpos p (List.mem_of_getElem? hp)))

/-! ## Frequencies stay within 64 bits (R139) -/

theorem sum_freq_lt {ps : List FreqPair} (h : ps.length < 2 ^ 32) : (ps.map fun p => p.freq.toNat).sum < 2 ^ 64 := by
  have hsum := List.sum_le_card_nsmul (ps.map fun p => p.freq.toNat) (2 ^ 32) fun f hf => by
    obtain ⟨p, -, rfl⟩ := List.mem_map.1 hf
    exact p.freq.isLt.le
  rw [List.length_map, smul_eq_mul] at hsum
  omega

/-- Settles O34: a live node's frequency is part of the sum that the loop keeps, a retired one's is 0. -/
theorem mergeFrequenciesStayBelowTwoToThe64 : Obligations.MergeFrequenciesStayBelowTwoToThe64 := by
  intro ps k hlen n hn
  by_cases hfreq : n.freq = 0
  · simp [hfreq]
  have hlive : n ∈ liveNodes ((Work.seed ps).rounds k).nodes := mem_liveNodes.2 ⟨hn, hfreq⟩
  calc n.freq ≤ ((liveNodes ((Work.seed ps).rounds k).nodes).map Node.freq).sum :=
        List.le_sum_of_mem (List.mem_map_of_mem hlive)
    _ = ((liveNodes (seedNodes 0 ps)).map Node.freq).sum := Work.sum_freq_rounds _ k
    _ ≤ ((seedNodes 0 ps).map Node.freq).sum :=
        (List.filter_sublist.map Node.freq).sum_le_sum fun _ _ => Nat.zero_le _
    _ = (ps.map fun p => p.freq.toNat).sum := by rw [map_freq_seedNodes]
    _ < 2 ^ 64 := sum_freq_lt hlen

/-! ## The loop ends with one root (R136) -/

/-- With positive frequencies the loop leaves one live node, the last of all. -/
theorem exists_root {ps : List FreqPair} (hne : ps ≠ []) (hpos : AllPositive ps) :
    ∃ init root, ((Work.seed ps).rounds ps.length).nodes = init ++ [root] ∧ (∀ n ∈ init, n.freq = 0) ∧
      liveNodes ((Work.seed ps).rounds ps.length).nodes = [root] := by
  have hseed : ∃ root, (Work.seed ps).nodes.getLast? = some root ∧ root.freq ≠ 0 := by
    have hnodes : seedNodes 0 ps ≠ [] := fun h => hne (by simpa [seedNodes_eq_map] using h)
    have hlast := List.getLast_mem hnodes
    have hlive : (seedNodes 0 ps).getLast hnodes ∈ liveNodes (seedNodes 0 ps) := by rwa [liveNodes_seedNodes hpos]
    exact ⟨_, List.getLast?_eq_some_getLast hnodes, (mem_liveNodes.1 hlive).2⟩
  obtain ⟨root, hroot, hlive⟩ := Work.getLast?_rounds hseed ps.length
  obtain ⟨init, hnodes⟩ := List.getLast?_eq_some_iff.1 hroot
  have hstop : (liveNodes ((Work.seed ps).rounds ps.length).nodes).length ≤ 1 :=
    (Work.rounds_stops (by simp [liveNodes_seedNodes hpos])).2
  rw [hnodes, liveNodes_append, liveNodes_singleton hlive, List.length_append, List.length_singleton] at hstop
  have hinit : liveNodes init = [] := List.eq_nil_of_length_eq_zero (by omega)
  refine ⟨init, root, hnodes, liveNodes_eq_nil.1 hinit, ?_⟩
  rw [hnodes, liveNodes_append, hinit, liveNodes_singleton hlive, List.nil_append]

/-- Without a positive frequency the first scan finds nothing (R136). -/
theorem Work.rounds_of_no_live {w : Work} (h : liveNodes w.nodes = []) (k : Nat) : w.rounds k = w := by
  rcases w.rounds_cases k with ⟨-, -, hstop⟩ | ⟨a, b, hsel, -⟩
  · exact hstop
  · exact absurd (h ▸ hsel.liveNodes_perm) (by simp)

/-- Settles O33: one node of the `n` live ones is left, so `n - 1` rounds were made. -/
theorem mergeStopsWithOneRoot : Obligations.MergeStopsWithOneRoot := by
  refine ⟨fun ps hne hpos => ?_, fun ps hzero => Work.rounds_of_no_live (liveNodes_eq_nil.2 fun n hn => ?_) _⟩
  · obtain ⟨init, root, hnodes, hinit, hroot⟩ := exists_root hne hpos
    have hlen := (Work.seed ps).length_nodes_rounds ps.length
    have hsum := (Work.seed ps).sum_freq_rounds ps.length
    rw [hroot, Work.seed_nodes, liveNodes_seedNodes hpos, length_seedNodes, List.length_singleton] at hlen
    rw [hroot, Work.seed_nodes, liveNodes_seedNodes hpos, map_freq_seedNodes, List.map_singleton,
      List.sum_singleton] at hsum
    have hcount : ((Work.seed ps).rounds ps.length).nodes.length = 2 * ps.length - 1 := by omega
    refine ⟨hcount, (Work.rounds_stops (by simp [liveNodes_seedNodes hpos])).1,
      ⟨root, by rw [hnodes, List.getLast?_concat], hsum⟩, fun k n hk hn => ?_⟩
    rw [hnodes, List.length_append, List.length_singleton] at hcount
    rw [hnodes, List.getElem?_append_left (by omega)] at hn
    exact hinit n (List.mem_of_getElem? hn)
  · obtain ⟨i, p, hp, rfl⟩ := mem_seedNodes.1 hn
    exact congrArg BitVec.toNat (hzero p (List.mem_of_getElem? hp))

end Sys2Proof.Machine
end

section
/-!
The family 41_build_freq.md: the codes of the merge (R138, R140, R144, R146).
-/

namespace Sys2Proof.Machine

/-! ## The codes that a tree gives its leaves (R138, R144) -/

/-- The branches from the root to each leaf, 0 or 1, in the order of `Tree.leaves`. -/
def Tree.codes : Tree → List (List Bool)
  | .leaf _ => [[]]
  | .node zero one => zero.codes.map (false :: ·) ++ one.codes.map (true :: ·)

@[simp] theorem Tree.length_codes (t : Tree) : t.codes.length = t.leaves.length := by
  induction t with
  | leaf l => rfl
  | node zero one ihz iho => simp [Tree.codes, Tree.leaves, ihz, iho]

theorem Tree.length_leaves_pos (t : Tree) : 0 < t.leaves.length := by
  induction t with
  | leaf l => exact Nat.one_pos
  | node zero one ihz _ => simpa [Tree.leaves] using .inl ihz

/-- No leaf is deeper than there are other leaves: each branch point leaves one aside. -/
theorem Tree.length_lt_of_mem_codes {t : Tree} {p : List Bool} (hp : p ∈ t.codes) : p.length < t.leaves.length := by
  induction t generalizing p with
  | leaf l =>
    obtain rfl : p = [] := by simpa [Tree.codes] using hp
    exact Nat.one_pos
  | node zero one ihz iho =>
    have hz := zero.length_leaves_pos
    have ho := one.length_leaves_pos
    rw [Tree.leaves, List.length_append]
    simp only [Tree.codes, List.mem_append, List.mem_map] at hp
    rcases hp with ⟨q, hq, rfl⟩ | ⟨q, hq, rfl⟩
    · have hlt := ihz hq
      rw [List.length_cons]
      omega
    · have hlt := iho hq
      rw [List.length_cons]
      omega

/-- Each subtree's codes weigh 1, and half of that under one more bit (R144 (K)). -/
theorem Tree.kraft_codes (t : Tree) : (t.codes.map fun p => (1 / 2 : ℚ) ^ p.length).sum = 1 := by
  induction t with
  | leaf l => simp [Tree.codes]
  | node zero one ihz iho =>
    have hbit : ∀ (b : Bool) (ps : List (List Bool)), ((ps.map (b :: ·)).map fun p => (1 / 2 : ℚ) ^ p.length).sum =
        1 / 2 * (ps.map fun p => (1 / 2 : ℚ) ^ p.length).sum := fun b ps => by
      rw [List.map_map, ← List.sum_map_mul_left]
      simp only [Function.comp_def, List.length_cons, pow_succ']
    rw [Tree.codes, List.map_append, List.sum_append, hbit, hbit, ihz, iho]
    norm_num

/-- Neither string begins with the other. -/
def Incomparable (p q : List Bool) : Prop := ¬ p <+: q ∧ ¬ q <+: p

theorem prefixFree_iff {rows : List TableRow} :
    PrefixFree rows ↔ (rows.map TableRow.string).Pairwise Incomparable := by
  rw [List.pairwise_map]
  rfl

/-- Codes of one subtree share their first bit, codes of two differ in it (R144 (F)). -/
theorem Tree.pairwise_codes (t : Tree) : t.codes.Pairwise Incomparable := by
  induction t with
  | leaf l => exact List.pairwise_singleton _ _
  | node zero one ihz iho =>
    have hbit : ∀ {b : Bool} {p q : List Bool}, Incomparable p q → Incomparable (b :: p) (b :: q) := fun h => by
      simpa [Incomparable] using h
    refine List.pairwise_append.2 ⟨ihz.map _ fun _ _ => hbit, iho.map _ fun _ _ => hbit, fun p hp q hq => ?_⟩
    obtain ⟨p, -, rfl⟩ := List.mem_map.1 hp
    obtain ⟨q, -, rfl⟩ := List.mem_map.1 hq
    simp [Incomparable]

/-! ## Rows that carry a string (R80, R92, R140) -/

/-- `str` undoes `val` (R11). -/
theorem str_val (t : List Bool) : str t.length (val t) = t := by
  induction t with
  | nil => rfl
  | cons b t ih =>
    have hlt := val_lt t
    have hhigh : (b.toNat * 2 ^ t.length + val t) / 2 ^ t.length = b.toNat := by
      rw [Nat.mul_comm, Nat.mul_add_div (Nat.two_pow_pos _), Nat.div_eq_of_lt hlt, Nat.add_zero]
    have hlow : (b.toNat * 2 ^ t.length + val t) % 2 ^ t.length = val t := by
      rw [Nat.mul_comm, Nat.mul_add_mod, Nat.mod_eq_of_lt hlt]
    have hbit : (b.toNat % 2 == 1) = b := by cases b <;> rfl
    rw [List.length_cons, str, val_cons, hhigh, hlow, hbit, ih]

/-- The row has the string's length, and its code where that is a code at all (R140). -/
structure TableRow.Spells (r : TableRow) (p : List Bool) : Prop where
  length : r.length = p.length
  code : p.length ≤ 32 → r.code.toNat = val p

theorem TableRow.Spells.string_eq {r : TableRow} {p : List Bool} (h : r.Spells p) (hlen : r.length ≤ 32) :
    r.string = p := by
  rw [h.length] at hlen
  rw [TableRow.string, h.length, h.code hlen, str_val]

theorem TableRow.Spells.fits {r : TableRow} {p : List Bool} (h : r.Spells p) (hlen : r.length ≤ 32) :
    r.code.toNat < 2 ^ r.length := by
  rw [h.length] at hlen
  rw [h.length, h.code hlen]
  exact val_lt p

/-- Appending a bit at the current length puts it in front of the string (R92, C1). -/
theorem TableRow.Spells.append {r : TableRow} {p : List Bool} (h : r.Spells p) (bit : Bool) :
    (r.append bit).Spells (bit :: p) := by
  obtain ⟨hlen, -, hcode⟩ := builderAppendDropsBitsAboveThirtyOne bit r
  refine ⟨by rw [hlen, h.length, List.length_cons], fun hle => ?_⟩
  rw [List.length_cons] at hle
  rw [hcode, h.length, if_pos (Nat.lt_of_succ_le hle), h.code (Nat.le_of_lt hle), val_cons, Nat.shiftLeft_eq,
    Nat.lor_comm, Nat.mul_comm, Nat.two_pow_add_eq_or_of_lt (val_lt p)]

/-! ## The rows during the loop -/

theorem getElem?_pushBit (bit : Bool) (ls : List Nat) (i k : Nat) (rows : List TableRow) :
    (pushBit bit ls i rows)[k]? = rows[k]?.map fun r => if i + k ∈ ls then r.append bit else r := by
  induction rows generalizing i k with
  | nil => simp [pushBit]
  | cons r rows ih =>
    cases k with
    | zero => simp [pushBit]
    | succ k => simp [pushBit, ih, Nat.add_assoc, Nat.add_comm 1 k]

/-- The row of leaf `l` carries the string `p`. -/
def Work.SpelledAt (w : Work) (l : Nat) (p : List Bool) : Prop := ∃ r, w.leaves[l]? = some r ∧ r.Spells p

section Merge
variable {w : Work} {a b : Pick} {l : Nat} {p : List Bool}

theorem Work.spelledAt_merge_first (ha : l ∈ a.node.tree.leaves) (hb : l ∉ b.node.tree.leaves)
    (h : w.SpelledAt l p) : (w.merge a b).SpelledAt l (false :: p) := by
  obtain ⟨r, hr, hspells⟩ := h
  exact ⟨r.append false, by simp [Work.merge, getElem?_pushBit, hr, ha, hb], hspells.append false⟩

theorem Work.spelledAt_merge_second (ha : l ∉ a.node.tree.leaves) (hb : l ∈ b.node.tree.leaves)
    (h : w.SpelledAt l p) : (w.merge a b).SpelledAt l (true :: p) := by
  obtain ⟨r, hr, hspells⟩ := h
  exact ⟨r.append true, by simp [Work.merge, getElem?_pushBit, hr, ha, hb], hspells.append true⟩

theorem Work.leaves_merge_other (ha : l ∉ a.node.tree.leaves) (hb : l ∉ b.node.tree.leaves) :
    (w.merge a b).leaves[l]? = w.leaves[l]? := by
  simp [Work.merge, getElem?_pushBit, ha, hb]

end Merge

/-- The leaves under the live nodes. -/
def Work.liveLeaves (w : Work) : List Nat := (liveNodes w.nodes).flatMap fun n => n.tree.leaves

theorem Work.mem_liveLeaves {w : Work} {l : Nat} :
    l ∈ w.liveLeaves ↔ ∃ n ∈ liveNodes w.nodes, l ∈ n.tree.leaves :=
  List.mem_flatMap

/-- The leaves of a join are those of its two parts. -/
theorem Work.liveLeaves_merge {w : Work} {a b : Pick} (h : Selected w.nodes a b) :
    (w.merge a b).liveLeaves.Perm w.liveLeaves := by
  obtain ⟨rest, hbefore, hafter⟩ := Work.liveNodes_merge h
  refine (hafter.flatMap_right _).trans (.trans ?_ (hbefore.flatMap_right _).symm)
  simp [Tree.leaves]

theorem Work.liveLeaves_rounds (w : Work) (k : Nat) : (w.rounds k).liveLeaves.Perm w.liveLeaves :=
  Work.rounds_induction (I := fun v => v.liveLeaves.Perm w.liveLeaves)
    (fun _ _ _ hsel hv => (Work.liveLeaves_merge hsel).trans hv) (.refl _) k

/-- At each point of the loop: no leaf is under two live nodes, each row carries the string from its live node down to
its leaf, and a row under no live node is as it was seeded. -/
structure Work.Coded (w : Work) : Prop where
  nodup : w.liveLeaves.Nodup
  spelled : ∀ n ∈ liveNodes w.nodes, List.Forall₂ w.SpelledAt n.tree.leaves n.tree.codes
  idle : ∀ l ∉ w.liveLeaves, ∀ r, w.leaves[l]? = some r → r.Spells []

theorem forall₂_imp_of_mem {α β : Type} {R S : α → β → Prop} {as : List α} {bs : List β}
    (h : List.Forall₂ R as bs) (himp : ∀ a ∈ as, ∀ b, R a b → S a b) : List.Forall₂ S as bs :=
  List.Forall₂.imp (fun a b ⟨ha, hab⟩ => himp a ha b hab)
    ((List.forall₂_and_left as bs (p := (· ∈ as))).2 ⟨fun _ ha => ha, h⟩)

theorem map_eq_map_of_forall₂ {α β γ : Type} {R : α → β → Prop} {f : α → γ} {g : β → γ} {as : List α}
    {bs : List β} (h : List.Forall₂ R as bs) (heq : ∀ a ∈ as, ∀ b, R a b → f a = g b) : as.map f = bs.map g := by
  rw [← List.forall₂_eq_eq_eq, List.forall₂_map_left_iff, List.forall₂_map_right_iff]
  exact forall₂_imp_of_mem h heq

/-- A merge puts a 0 before the strings of `first`, a 1 before those of `second`, and touches no other row (R138). -/
theorem Work.Coded.merge {w : Work} (hw : w.Coded) {a b : Pick} (h : Selected w.nodes a b) :
    (w.merge a b).Coded := by
  have hleaves := Work.liveLeaves_merge h
  obtain ⟨rest, hbefore, hafter⟩ := Work.liveNodes_merge h
  have hnodup : ((a.node :: b.node :: rest).flatMap fun n => n.tree.leaves).Nodup :=
    (hbefore.flatMap_right _).nodup_iff.1 hw.nodup
  simp only [List.flatMap_cons, List.nodup_append', List.disjoint_append_right] at hnodup
  obtain ⟨-, ⟨-, -, hbrest⟩, hab, harest⟩ := hnodup
  refine ⟨hleaves.nodup_iff.2 hw.nodup, fun n hn => ?_, fun l hl r hr => ?_⟩
  · rcases List.mem_cons.1 (hafter.mem_iff.1 hn) with rfl | hn
    · have hcoded : ∀ m ∈ [a.node, b.node], List.Forall₂ w.SpelledAt m.tree.leaves m.tree.codes := fun m hm =>
        hw.spelled m (hbefore.mem_iff.2 (List.mem_append_left rest hm))
      refine List.rel_append (List.forall₂_map_right_iff.2 ?_) (List.forall₂_map_right_iff.2 ?_)
      · exact forall₂_imp_of_mem (hcoded a.node (by simp)) fun l hl p =>
          Work.spelledAt_merge_first hl (hab hl)
      · exact forall₂_imp_of_mem (hcoded b.node (by simp)) fun l hl p =>
          Work.spelledAt_merge_second (fun hl' => hab hl' hl) hl
    · refine forall₂_imp_of_mem (hw.spelled n (hbefore.mem_iff.2 (by simp [hn]))) ?_
      rintro l hl p ⟨r, hr, hspells⟩
      refine ⟨r, ?_, hspells⟩
      have hlrest : l ∈ rest.flatMap fun n => n.tree.leaves := List.mem_flatMap.2 ⟨n, hn, hl⟩
      rwa [Work.leaves_merge_other (fun hl' => harest hl' hlrest) fun hl' => hbrest hl' hlrest]
  · have hl' := fun hmem => hl (hleaves.mem_iff.2 hmem)
    have hout : ∀ m ∈ [a.node, b.node], l ∉ m.tree.leaves := fun m hm hlm =>
      hl' (Work.mem_liveLeaves.2 ⟨m, hbefore.mem_iff.2 (List.mem_append_left rest hm), hlm⟩)
    rw [Work.leaves_merge_other (hout a.node (by simp)) (hout b.node (by simp))] at hr
    exact hw.idle l hl' r hr

/-! ## Seeding (R132) -/

theorem leaves_seedNodes (k : Nat) (ps : List FreqPair) :
    ((seedNodes k ps).flatMap fun n => n.tree.leaves) = List.range' k ps.length := by
  induction ps generalizing k with
  | nil => rfl
  | cons p ps ih => simp [seedNodes, ih, Tree.leaves, List.range'_succ]

/-- The live leaves are the positions of the positive frequencies. -/
theorem mem_liveLeaves_seed {ps : List FreqPair} {i : Nat} :
    i ∈ (Work.seed ps).liveLeaves ↔ ∃ p, ps[i]? = some p ∧ p.freq ≠ 0#32 := by
  simp only [Work.mem_liveLeaves, mem_liveNodes, Work.seed_nodes, mem_seedNodes]
  constructor
  · rintro ⟨_, ⟨⟨j, p, hp, rfl⟩, hfreq⟩, hi⟩
    obtain rfl : i = j := by simpa [Tree.leaves] using hi
    exact ⟨p, hp, toNat_freq_ne_zero.1 hfreq⟩
  · rintro ⟨p, hp, hfreq⟩
    exact ⟨_, ⟨⟨i, p, hp, rfl⟩, toNat_freq_ne_zero.2 hfreq⟩, by simp [Tree.leaves]⟩

theorem liveLeaves_seed_sublist (ps : List FreqPair) : (Work.seed ps).liveLeaves.Sublist (List.range' 0 ps.length) := by
  rw [← leaves_seedNodes]
  exact List.filter_sublist.flatMap _

/-- Every row starts empty. -/
theorem spells_nil_of_seed {ps : List FreqPair} {l : Nat} {r : TableRow} (h : (Work.seed ps).leaves[l]? = some r) :
    r.Spells [] := by
  obtain ⟨p, -, rfl⟩ : ∃ p, ps[l]? = some p ∧ TableRow.mk 0#32 0 p.symbol = r := by
    simpa [Work.seed] using h
  exact ⟨rfl, fun _ => rfl⟩

theorem coded_seed (ps : List FreqPair) : (Work.seed ps).Coded where
  nodup := (liveLeaves_seed_sublist ps).nodup List.nodup_range'
  spelled n hn := by
    obtain ⟨hn, -⟩ := mem_liveNodes.1 hn
    obtain ⟨i, p, hp, rfl⟩ := mem_seedNodes.1 hn
    have hrow : (Work.seed ps).leaves[i]? = some (TableRow.mk 0#32 0 p.symbol) := by simp [Work.seed, hp]
    exact .cons ⟨_, hrow, spells_nil_of_seed hrow⟩ .nil
  idle l _ r hr := spells_nil_of_seed hr

theorem coded_rounds (ps : List FreqPair) (k : Nat) : ((Work.seed ps).rounds k).Coded :=
  Work.rounds_induction (fun _ _ _ hsel hw => hw.merge hsel) (coded_seed ps) k

/-! ## The rows of the merge, whatever the frequencies (R140, R145) -/

/-- A pair of frequency 0 is never merged, so its row stays empty (R145). -/
theorem mergeRows_spells_nil {ps : List FreqPair} {i : Nat} {p : FreqPair} {r : TableRow} (hp : ps[i]? = some p)
    (hzero : p.freq = 0#32) (hr : (mergeRows ps)[i]? = some r) : r.Spells [] := by
  refine (coded_rounds ps ps.length).idle i (fun hi => ?_) r hr
  obtain ⟨q, hq, hne⟩ := mem_liveLeaves_seed.1 (((Work.seed ps).liveLeaves_rounds ps.length).mem_iff.1 hi)
  exact hne (Option.some.inj (hp.symm.trans hq) ▸ hzero)

/-- A row of the merge is empty or carries a code of one of the trees left. -/
theorem exists_spells_of_mem_mergeRows {ps : List FreqPair} {r : TableRow} (hr : r ∈ mergeRows ps) :
    ∃ p, r.Spells p ∧ (p = [] ∨ ∃ n ∈ liveNodes ((Work.seed ps).rounds ps.length).nodes, p ∈ n.tree.codes) := by
  obtain ⟨l, hl⟩ := List.mem_iff_getElem?.1 hr
  have hcoded := coded_rounds ps ps.length
  by_cases hlive : l ∈ ((Work.seed ps).rounds ps.length).liveLeaves
  · obtain ⟨n, hn, hln⟩ := Work.mem_liveLeaves.1 hlive
    obtain ⟨i, hi, rfl⟩ := List.mem_iff_getElem.1 hln
    obtain ⟨-, hget⟩ := List.forall₂_iff_get.1 (hcoded.spelled n hn)
    have hi' : i < n.tree.codes.length := by rwa [Tree.length_codes]
    obtain ⟨q, hq, hspells⟩ := hget i hi hi'
    obtain rfl : r = q := Option.some.inj (hl.symm.trans hq)
    exact ⟨_, hspells, .inr ⟨n, hn, List.getElem_mem hi'⟩⟩
  · exact ⟨[], hcoded.idle l hlive r hl, .inl rfl⟩

/-- A tree left has no more leaves than there are pairs. -/
theorem length_leaves_le {ps : List FreqPair} {n : Node}
    (hn : n ∈ liveNodes ((Work.seed ps).rounds ps.length).nodes) : n.tree.leaves.length ≤ ps.length := by
  calc n.tree.leaves.length ≤ ((Work.seed ps).rounds ps.length).liveLeaves.length := by
        rw [Work.liveLeaves, List.length_flatMap]
        exact List.le_sum_of_mem (List.mem_map_of_mem hn)
    _ = (Work.seed ps).liveLeaves.length := ((Work.seed ps).liveLeaves_rounds ps.length).length_eq
    _ ≤ (List.range' 0 ps.length).length := (liveLeaves_seed_sublist ps).length_le
    _ = ps.length := List.length_range'

/-- Settles O35: a string of a tree is shorter than the number of its leaves, and a code is its value. -/
theorem mergeLengthsAndCodesAreBounded : Obligations.MergeLengthsAndCodesAreBounded := by
  refine fun ps => ⟨length_mergeRows ps, fun r hr => ?_⟩
  obtain ⟨p, hspells, hp⟩ := exists_spells_of_mem_mergeRows hr
  refine ⟨?_, hspells.fits⟩
  rw [hspells.length]
  rcases hp with rfl | ⟨n, hn, hp⟩
  · exact Nat.zero_le _
  · exact Nat.le_sub_one_of_lt ((Tree.length_lt_of_mem_codes hp).trans_le (length_leaves_le hn))

/-! ## The rows of the merge with positive frequencies (R144) -/

theorem filterMap_getElem?_range {α : Type} (as : List α) :
    (List.range as.length).filterMap (fun l => as[l]?) = as := by
  induction as with
  | nil => rfl
  | cons a as ih =>
    rw [List.length_cons, List.range_succ_eq_map, List.filterMap_cons_some (by rfl), List.filterMap_map]
    exact congrArg _ ih

theorem Work.forall₂_filterMap {w : Work} {ls : List Nat} {strings : List (List Bool)}
    (h : List.Forall₂ w.SpelledAt ls strings) :
    List.Forall₂ TableRow.Spells (ls.filterMap fun l => w.leaves[l]?) strings := by
  induction h with
  | nil => exact .nil
  | cons hl _ ih =>
    obtain ⟨r, hr, hspells⟩ := hl
    rw [List.filterMap_cons_some hr]
    exact .cons hspells ih

/-- The one tree left has every pair as a leaf, so the rows, in the order of its leaves, carry its codes. -/
theorem mergeRows_spell_codes {ps : List FreqPair} (hne : ps ≠ []) (hpos : AllPositive ps) :
    ∃ (t : Tree) (rows : List TableRow), rows.Perm (mergeRows ps) ∧ List.Forall₂ TableRow.Spells rows t.codes := by
  obtain ⟨-, root, -, -, hroot⟩ := exists_root hne hpos
  have hleaves : root.tree.leaves.Perm (List.range (mergeRows ps).length) := by
    have hperm := (Work.seed ps).liveLeaves_rounds ps.length
    rwa [Work.liveLeaves, hroot, List.flatMap_singleton, Work.liveLeaves, Work.seed_nodes, liveNodes_seedNodes hpos,
      leaves_seedNodes, ← List.range_eq_range', ← length_mergeRows] at hperm
  have hspelled := (coded_rounds ps ps.length).spelled root (by simp [hroot])
  refine ⟨root.tree, _, ?_, Work.forall₂_filterMap hspelled⟩
  have hrows := hleaves.filterMap fun l => (mergeRows ps)[l]?
  rwa [filterMap_getElem?_range] at hrows

/-- The lengths are those of the root's codes, which weigh 1. -/
theorem mergeRows_kraft {ps : List FreqPair} (hne : ps ≠ []) (hpos : AllPositive ps) :
    ((mergeRows ps).map fun r => (1 / 2 : ℚ) ^ r.length).sum = 1 := by
  obtain ⟨t, rows, hperm, hspell⟩ := mergeRows_spell_codes hne hpos
  calc ((mergeRows ps).map fun r => (1 / 2 : ℚ) ^ r.length).sum
      = (rows.map fun r => (1 / 2 : ℚ) ^ r.length).sum := (hperm.symm.map _).sum_eq
    _ = (t.codes.map fun p => (1 / 2 : ℚ) ^ p.length).sum :=
        congrArg List.sum (map_eq_map_of_forall₂ hspell fun r _ p h => by rw [h.length])
    _ = 1 := t.kraft_codes

/-- Settles O36: two pairs are more than the one that the equality needs. -/
theorem mergeLengthsSatisfyKraftEquality : Obligations.MergeLengthsSatisfyKraftEquality :=
  fun _ hlen => mergeRows_kraft (List.ne_nil_of_length_pos (Nat.zero_lt_of_lt hlen))

/-- Settles O37: within 32 bits the strings are the root's codes, and the order of the rows does not matter. -/
theorem mergeCodesArePrefixFree : Obligations.MergeCodesArePrefixFree := by
  intro ps hpos hlen
  rcases eq_or_ne ps [] with rfl | hne
  · exact List.Pairwise.nil
  obtain ⟨t, rows, hperm, hspell⟩ := mergeRows_spell_codes hne hpos
  have hstrings : rows.map TableRow.string = t.codes.map id :=
    map_eq_map_of_forall₂ hspell fun r hr p h => h.string_eq (hlen r (hperm.mem_iff.1 hr))
  rw [List.map_id] at hstrings
  have hfree : PrefixFree rows := prefixFree_iff.2 (hstrings ▸ t.pairwise_codes)
  exact (hperm.pairwise_iff And.symm).1 hfree

/-- Settles O42: three rounds, written out by evaluation (R146). -/
theorem sourceTieBreakCase : Obligations.SourceTieBreakCase := by
  unfold Obligations.SourceTieBreakCase
  decide

end Sys2Proof.Machine
end

section
/-!
The family 41_build_freq.md: what `BUILD_FREQ` answers (R131, R141 to R145), and that its book decodes every stream
(R144 (C)).
-/

namespace Sys2Proof.Machine

/-! ## `PrefixFree` rows share no index (R12, R88) -/

/-- The high bits of a number are the front of its string (R11). -/
theorem str_div_prefix (m k c : Nat) : str m (c / 2 ^ k) <+: str (m + k) c := by
  induction m generalizing c with
  | zero => exact List.nil_prefix
  | succ m ih =>
    have hrest : c / 2 ^ k % 2 ^ m = c % 2 ^ (m + k) / 2 ^ k := by
      rw [Nat.add_comm, Nat.pow_add, Nat.mod_mul_right_div_self]
    have hfirst : c / 2 ^ k / 2 ^ m = c / 2 ^ (m + k) := by
      rw [Nat.div_div_eq_div_mul, ← Nat.pow_add, Nat.add_comm]
    rw [Nat.add_right_comm, str, str, hfirst, hrest, List.prefix_cons_inj]
    exact ih _

theorem Covers.string_prefix {n j : Nat} {r : TableRow} (h : Covers n r j) : r.string <+: str n j := by
  obtain ⟨hle, -, hcode⟩ := h
  have hprefix := str_div_prefix r.length (n - r.length) j
  rwa [hcode, Nat.add_sub_cancel' hle] at hprefix

theorem Incomparable.not_covers {n j : Nat} {r q : TableRow} (h : Incomparable r.string q.string)
    (hr : Covers n r j) : ¬ Covers n q j := fun hq =>
  (List.prefix_or_prefix_of_prefix hr.string_prefix hq.string_prefix).elim h.1 h.2

theorem PrefixFree.W2 {rows : List TableRow} (h : PrefixFree rows) (P : Nat) : W2 P rows := by
  induction rows with
  | nil => simp [Machine.W2]
  | cons r rows ih =>
    obtain ⟨hr, hrows⟩ := List.pairwise_cons.1 h
    exact W2_cons.2 ⟨fun q hq j hj hj' => absurd hj' (Incomparable.not_covers (hr q hq) hj), ih hrows⟩

/-! ## Rows that weigh 1 cover every index (R144 (C)) -/

theorem TableRow.Recordable.mono {m n : Nat} {r : TableRow} (h : r.Recordable m) (hle : m ≤ n) : r.Recordable n :=
  ⟨h.pos, h.le.trans hle, h.fits⟩

/-- The indices of `n` bits in the fill ranges of the rows (R88). -/
def coveredIndices (n : Nat) : List TableRow → Finset Nat
  | [] => ∅
  | r :: rows => Finset.Ico (fillStart n r) (fillStart n r + fillCount n r) ∪ coveredIndices n rows

section Covered
variable {n : Nat} {rows : List TableRow}

theorem mem_Ico_fillRange {r : TableRow} (hr : r.Recordable n) {j : Nat} :
    j ∈ Finset.Ico (fillStart n r) (fillStart n r + fillCount n r) ↔ Covers n r j := by
  rw [Finset.mem_Ico, hr.covers_iff, and_iff_right hr.le]

theorem mem_coveredIndices (hrows : ∀ r ∈ rows, r.Recordable n) {j : Nat} :
    j ∈ coveredIndices n rows ↔ ∃ r ∈ rows, Covers n r j := by
  induction rows with
  | nil => simp [coveredIndices]
  | cons r rows ih =>
    obtain ⟨hr, hrest⟩ := List.forall_mem_cons.1 hrows
    rw [coveredIndices, Finset.mem_union, mem_Ico_fillRange hr, ih hrest, List.exists_mem_cons_iff]

/-- Fill ranges of `PrefixFree` rows are disjoint, so their sizes add up. -/
theorem card_coveredIndices (hrows : ∀ r ∈ rows, r.Recordable n) (hfree : PrefixFree rows) :
    (coveredIndices n rows).card = (rows.map (fillCount n)).sum := by
  induction rows with
  | nil => rfl
  | cons r rows ih =>
    obtain ⟨hr, hrest⟩ := List.forall_mem_cons.1 hrows
    obtain ⟨hr', hfree'⟩ := List.pairwise_cons.1 hfree
    have hdisjoint : Disjoint (Finset.Ico (fillStart n r) (fillStart n r + fillCount n r)) (coveredIndices n rows) := by
      refine Finset.disjoint_left.2 fun j hj hj' => ?_
      obtain ⟨q, hq, hqj⟩ := (mem_coveredIndices hrest).1 hj'
      exact Incomparable.not_covers (hr' q hq) ((mem_Ico_fillRange hr).1 hj) hqj
    rw [coveredIndices, Finset.card_union_of_disjoint hdisjoint, Nat.card_Ico, Nat.add_sub_cancel_left, ih hrest hfree',
      List.map_cons, List.sum_cons]

/-- A row of length `L` fills `2^n · 2^-L` indices. -/
theorem sum_fillCount (hrows : ∀ r ∈ rows, r.Recordable n) :
    ((rows.map (fillCount n)).sum : ℚ) = 2 ^ n * (rows.map fun r => (1 / 2 : ℚ) ^ r.length).sum := by
  induction rows with
  | nil => simp
  | cons r rows ih =>
    obtain ⟨hr, hrest⟩ := List.forall_mem_cons.1 hrows
    have hcount : (fillCount n r : ℚ) = 2 ^ n * (1 / 2) ^ r.length := by
      rw [fillCount, Nat.cast_pow, Nat.cast_ofNat, pow_sub₀ _ two_ne_zero hr.le, one_div, inv_pow]
    rw [List.map_cons, List.sum_cons, Nat.cast_add, ih hrest, hcount, List.map_cons, List.sum_cons, mul_add]

/-- Kraft equality leaves no index of `n` bits out. -/
theorem exists_covers_of_kraft (hrows : ∀ r ∈ rows, r.Recordable n) (hfree : PrefixFree rows)
    (hkraft : (rows.map fun r => (1 / 2 : ℚ) ^ r.length).sum = 1) {j : Nat} (hj : j < 2 ^ n) :
    ∃ r ∈ rows, Covers n r j := by
  have hcard : (coveredIndices n rows).card = 2 ^ n := by
    have hsum := sum_fillCount hrows
    rw [hkraft, mul_one, ← card_coveredIndices hrows hfree] at hsum
    exact_mod_cast hsum
  have hsub : coveredIndices n rows ⊆ Finset.range (2 ^ n) := fun i hi => by
    obtain ⟨r, -, -, hlt, -⟩ := (mem_coveredIndices hrows).1 hi
    exact Finset.mem_range.2 hlt
  rw [← mem_coveredIndices hrows, Finset.eq_of_subset_of_card_le hsub (by rw [hcard, Finset.card_range])]
  exact Finset.mem_range.2 hj

end Covered

/-! ## Decoding against rows that cover everything (R152 to R157) -/

/-- A row that covers one bit more covers without it, or is exactly as long. -/
theorem Covers.of_succ {n w : Nat} {r : TableRow} (h : Covers (n + 1) r w) :
    Covers n r (w / 2) ∨ (r.length = n + 1 ∧ r.code.toNat = w) := by
  obtain ⟨hle, hlt, hcode⟩ := h
  rcases Nat.lt_or_eq_of_le hle with hle | heq
  · refine .inl ⟨Nat.le_of_lt_succ hle, Nat.div_lt_of_lt_mul (by rwa [← Nat.pow_succ']), ?_⟩
    rw [← hcode, Nat.div_div_eq_div_mul, ← Nat.pow_succ', Nat.succ_sub (Nat.le_of_lt_succ hle)]
  · rw [heq, Nat.sub_self, Nat.pow_zero, Nat.div_one] at hcode
    exact .inr ⟨heq, hcode.symm⟩

/-- A table hit answers the symbol of a row that covers the index (R116). -/
theorem BookOf.hit_symbol {P ml : Nat} {rows : List TableRow} {b : CodeBook} (hb : BookOf P ml rows b) {j : Nat}
    {sym : Symbol} {len : Nat} (h : b.entry j = .hit sym len) : ∃ r ∈ rows, r.symbol = sym := by
  by_contra hnone
  have hcovers : ∀ r ∈ rows, ¬ Covers P r j := fun r hr hj =>
    hnone ⟨r, hr, (PrefixEntry.hit.inj ((hb.covered r hr j hj).symm.trans h)).1⟩
  rw [hb.uncovered j hcovers] at h
  cases h

theorem BookOf.mem_bucket {P ml : Nat} {rows : List TableRow} {b : CodeBook} (hb : BookOf P ml rows b) {i : Nat}
    {p : BucketPair} : p ∈ b.bucket i ↔ ∃ r ∈ rows, r.length = P + 1 + i ∧ ⟨r.code, r.symbol⟩ = p := by
  simp [hb.buckets, and_assoc]

/-- Where no row covers the bits read so far and every string of the full width is covered, the bucket scan finds a row,
whatever bits the cursor delivers. -/
theorem scanBuckets_answers {P ml k i w : Nat} {rows : List TableRow} {s : State} (hb : BookOf P ml rows s.slot)
    (c : CursorId) (hall : ∀ v < 2 ^ (P + i + k), ∃ r ∈ rows, Covers (P + i + k) r v) (hw : w < 2 ^ (P + i))
    (hnone : ∀ r ∈ rows, ¬ Covers (P + i) r w) :
    ∃ r ∈ rows, (scanBuckets c k i w s).response = some (.okSymbol r.symbol) := by
  induction k generalizing i w s with
  | zero =>
    obtain ⟨r, hr, hcov⟩ := hall w hw
    exact absurd hcov (hnone r hr)
  | succ k ih =>
    have hbit : (s.cursor c).peek 1 < 2 := (s.cursor c).peek_lt 1
    have hext := extendCode_eq w hbit
    unfold scanBuckets
    split
    next sym hfind =>
      obtain ⟨pre, p, post, hsplit, -, -, rfl⟩ := findSymbol_eq_some.1 hfind
      obtain ⟨r, hr, -, rfl⟩ := hb.mem_bucket.1 (show p ∈ s.slot.bucket i by simp [hsplit])
      exact ⟨r, hr, rfl⟩
    next hfind =>
      refine ih (s := (s.peek c 1).skip c 1) hb (i := i + 1) ?_ ?_ fun r hr hcov => ?_
      · rwa [← Nat.add_assoc, Nat.add_assoc (P + i), Nat.add_comm 1 k]
      · rw [hext, ← Nat.add_assoc, Nat.pow_succ]
        omega
      · rw [← Nat.add_assoc] at hcov
        rcases hcov.of_succ with hcov | ⟨hlen, hcode⟩
        · refine hnone r hr ?_
          rwa [hext, show (2 * w + (s.cursor c).peek 1) / 2 = w by omega] at hcov
        · rw [Nat.add_right_comm] at hlen
          exact findSymbol_eq_none.1 hfind ⟨r.code, r.symbol⟩ (hb.mem_bucket.2 ⟨r, hr, hlen, rfl⟩) hcode

/-- Against the book of `PrefixFree` rows that weigh 1, every decode answers the symbol of a row. -/
theorem State.decodeSymbol_answers {s : State} {ml : Nat} {rows : List TableRow}
    (hb : BookOf s.params.P ml rows s.slot) (hrows : ∀ r ∈ rows, r.Recordable ml) (hfree : PrefixFree rows)
    (hkraft : (rows.map fun r => (1 / 2 : ℚ) ^ r.length).sum = 1) (c : CursorId) :
    ∃ r ∈ rows, (s.decodeSymbol c).response = some (.okSymbol r.symbol) := by
  unfold State.decodeSymbol
  split
  next sym len hhit =>
    obtain ⟨r, hr, rfl⟩ := hb.hit_symbol hhit
    exact ⟨r, hr, rfl⟩
  next hmiss =>
    have hwide : ∀ r ∈ rows, r.Recordable (s.params.P + 0 + s.nbuckets) := fun r hr =>
      (hrows r hr).mono (by rw [State.nbuckets, hb.maxLen]; omega)
    refine scanBuckets_answers (s := s.opened c s.params.P) hb c
      (fun v hv => exists_covers_of_kraft hwide hfree hkraft hv) (s.decodeIndex_lt c) fun r hr hcov => ?_
    rw [hb.covered r hr _ hcov] at hmiss
    cases hmiss

/-! ## What entry keeps (D9) -/

@[simp] theorem map_symbol_enteredRows (p : Params) (rows : List TableRow) :
    (enteredRows p rows).map TableRow.symbol = rows.map TableRow.symbol := by
  unfold enteredRows
  split
  · rw [List.map_map]
    rfl
  · rfl

theorem forall_length_enteredRows {p : Params} {rows : List TableRow} (Q : Nat → Prop) :
    (∀ r ∈ enteredRows p rows, Q r.length) ↔ ∀ r ∈ rows, Q r.length := by
  rw [← List.forall_mem_map (f := TableRow.length), map_length_enteredRows, List.forall_mem_map]

theorem kraft_enteredRows (p : Params) (rows : List TableRow) :
    ((enteredRows p rows).map fun r => (1 / 2 : ℚ) ^ r.length).sum =
      (rows.map fun r => (1 / 2 : ℚ) ^ r.length).sum := by
  have hlengths := congrArg (List.map fun n => (1 / 2 : ℚ) ^ n) (map_length_enteredRows p rows)
  rw [List.map_map, List.map_map] at hlengths
  exact congrArg List.sum hlengths

/-- The checks ask only for the lengths, which entry keeps. -/
theorem PassesChecks.entered {maxLength ml : Nat} {rows : List TableRow} (h : PassesChecks maxLength rows ml)
    (p : Params) : PassesChecks maxLength (enteredRows p rows) ml where
  nonempty hnil := h.nonempty <| (List.map_eq_nil_iff (f := TableRow.length)).1 <| by
    rw [← map_length_enteredRows p rows, hnil, List.map_nil]
  isMax := by
    refine ⟨h.isMax.given, fun hzero => ?_⟩
    obtain ⟨hmem, hle⟩ := h.isMax.derived hzero
    refine ⟨?_, (forall_length_enteredRows (· ≤ ml)).2 hle⟩
    rwa [← List.mem_map, map_length_enteredRows, List.mem_map]
  bound := h.bound
  within := (forall_length_enteredRows (· ≤ ml)).2 h.within
  positive := (forall_length_enteredRows (· ≠ 0)).2 h.positive

/-! ## The rows of the merge as entries of a table (R141) -/

theorem map_symbol_pushBit (bit : Bool) (ls : List Nat) (i : Nat) (rows : List TableRow) :
    (pushBit bit ls i rows).map TableRow.symbol = rows.map TableRow.symbol := by
  induction rows generalizing i with
  | nil => rfl
  | cons r rows ih =>
    rw [pushBit, List.map_cons, List.map_cons, ih]
    split <;> rfl

/-- Row `i` of the merge has the symbol of pair `i` (R141). -/
theorem map_symbol_mergeRows (ps : List FreqPair) :
    (mergeRows ps).map TableRow.symbol = ps.map FreqPair.symbol := by
  have hseed : (Work.seed ps).leaves.map TableRow.symbol = ps.map FreqPair.symbol := by
    rw [Work.seed, List.map_map]
    rfl
  refine Work.rounds_induction (I := fun w => w.leaves.map TableRow.symbol = ps.map FreqPair.symbol)
    (fun w a b _ hw => ?_) hseed ps.length
  rw [Work.merge, map_symbol_pushBit, map_symbol_pushBit, hw]

theorem mergeRows_W1 {ps : List FreqPair} (hlen : ∀ r ∈ mergeRows ps, r.length ≤ 32) : W1 (mergeRows ps) :=
  fun r hr => ((mergeLengthsAndCodesAreBounded ps).2 r hr).2 (hlen r hr)

/-- A pair of frequency 0 leaves a row of length 0 (R145). -/
theorem exists_length_zero_of_freq_zero {ps : List FreqPair} (h : ∃ p ∈ ps, p.freq = 0#32) :
    ∃ r ∈ mergeRows ps, r.length = 0 := by
  obtain ⟨p, hp, hzero⟩ := h
  obtain ⟨i, hi, hget⟩ := List.mem_iff_getElem.1 hp
  have hi' : i < (mergeRows ps).length := by rwa [length_mergeRows]
  have hspells := mergeRows_spells_nil (List.getElem?_eq_some_iff.2 ⟨hi, hget⟩) hzero (List.getElem?_eq_getElem hi')
  exact ⟨_, List.getElem_mem hi', hspells.length⟩

theorem allPositive_of_length_ne_zero {ps : List FreqPair} (h : ∀ r ∈ mergeRows ps, r.length ≠ 0) :
    AllPositive ps := fun p hp hzero => by
  obtain ⟨r, hr, hlen⟩ := exists_length_zero_of_freq_zero ⟨p, hp, hzero⟩
  exact h r hr hlen

/-- Beside another row no row is empty: an empty one alone weighs 1 (R144 (K)). -/
theorem mergeRows_length_ne_zero {ps : List FreqPair} (hlen : 2 ≤ ps.length) (hpos : AllPositive ps) :
    ∀ r ∈ mergeRows ps, r.length ≠ 0 := by
  intro r hr hzero
  have hperm := List.perm_cons_erase hr
  have hkraft := mergeLengthsSatisfyKraftEquality ps hlen hpos
  rw [(hperm.map _).sum_eq, List.map_cons, List.sum_cons, hzero, pow_zero] at hkraft
  have hrest : (mergeRows ps).erase r ≠ [] := List.ne_nil_of_length_pos (by
    have hlength := hperm.length_eq
    rw [length_mergeRows, List.length_cons] at hlength
    omega)
  have hrestpos : 0 < (((mergeRows ps).erase r).map fun q => (1 / 2 : ℚ) ^ q.length).sum := by
    refine List.sum_pos _ (fun x hx => ?_) (by simpa using hrest)
    obtain ⟨q, -, rfl⟩ := List.mem_map.1 hx
    positivity
  linarith

/-- What the checks say of the rows of the merge, which are then those of positive frequencies. -/
theorem mergeRows_of_tableError_eq_none {ps : List FreqPair} (h : tableError 0 (mergeRows ps) = none) :
    ps ≠ [] ∧ AllPositive ps ∧ (∀ r ∈ mergeRows ps, r.length ≤ 32) ∧
      ∀ r ∈ mergeRows ps, r.Recordable (effectiveMax 0 (mergeRows ps)) := by
  obtain ⟨hne, hmax, hle, hpos⟩ := tableError_eq_none.1 h
  have hlen : ∀ r ∈ mergeRows ps, r.length ≤ 32 := fun r hr => (hle r hr).trans hmax
  exact ⟨fun hnil => hne (by rw [hnil]; rfl), allPositive_of_length_ne_zero hpos, hlen,
    fun r hr => ⟨Nat.one_le_iff_ne_zero.2 (hpos r hr), hle r hr, mergeRows_W1 hlen r hr⟩⟩

/-! ## `BUILD_FREQ` fails (R131, R145) -/

theorem exec_buildFreq_withinCapacity {s : State} {ps : List FreqPair} (h : ps.length ≤ s.params.nmax.toNat) :
    exec (.buildFreq ps) s = s.buildEntries 0 (mergeRows ps) :=
  if_neg h.not_gt

theorem buildFreq_fails {s : State} {ps : List FreqPair} {e : EngineError} (hcap : ps.length ≤ s.params.nmax.toNat)
    (he : tableError 0 (mergeRows ps) = some e) : BuildFails (.buildFreq ps) s e := by
  refine ⟨s.loseBook.respond (.error e), ?_, rfl, rfl, rfl, rfl, rfl, rfl⟩
  rw [exec_buildFreq_withinCapacity hcap, State.buildEntries_of_error he]

/-- Without a given maximum the lengths alone decide. -/
theorem effectiveMax_zero_le {rows : List TableRow} {n : Nat} :
    effectiveMax 0 rows ≤ n ↔ ∀ r ∈ rows, r.length ≤ n :=
  foldr_max_length_le

theorem tableError_of_empty_code {rows : List TableRow} (hlen : ∀ r ∈ rows, r.length ≤ 32)
    (hzero : ∃ r ∈ rows, r.length = 0) : tableError 0 rows = some .zeroLength := by
  obtain ⟨r, hr, -⟩ := id hzero
  exact tableError_of_length_zero (List.ne_nil_of_mem hr) (effectiveMax_zero_le.2 hlen)
    (effectiveMax_zero_le.1 le_rfl) hzero

/-- Settles O40: each clause is one of the checks of R114 on the rows of the merge. -/
theorem buildFreqErrors : Obligations.BuildFreqErrors := by
  intro s ps hcap
  refine ⟨?_, fun hone => ?_, ?_, fun hzero hlen => ?_⟩
  · rintro rfl
    exact buildFreq_fails hcap tableError_nil
  · have hlen : ∀ r ∈ mergeRows ps, r.length = 0 := fun r hr => by
      have hle := ((mergeLengthsAndCodesAreBounded ps).2 r hr).1
      omega
    have hne : mergeRows ps ≠ [] := List.ne_nil_of_length_pos (by rw [length_mergeRows, hone]; exact Nat.one_pos)
    obtain ⟨r, hr⟩ := List.exists_mem_of_ne_nil _ hne
    exact buildFreq_fails hcap
      (tableError_of_empty_code (fun q hq => by rw [hlen q hq]; exact Nat.zero_le 32) ⟨r, hr, hlen r hr⟩)
  · rintro ⟨r, hr, hlong⟩
    exact buildFreq_fails hcap (tableError_of_max_above (List.ne_nil_of_mem hr)
      (hlong.trans_le (effectiveMax_zero_le.1 le_rfl r hr)))
  · exact buildFreq_fails hcap (tableError_of_empty_code hlen (exists_length_zero_of_freq_zero hzero))

/-! ## `BUILD_FREQ` goes on, or hands over what has no meaning (R131, R99, R112) -/

theorem wellFormedRows_of_prefixFree {p : Params} {rows : List TableRow} {ml : Nat} (hoff : p.lsbCodesReversed = false)
    (hrows : ∀ r ∈ rows, r.Recordable ml) (hfree : PrefixFree rows) : wellFormedRows p rows = true := by
  have hfits : rows.all TableRow.fits = true := List.all_eq_true.2 fun r hr => decide_eq_true (hrows r hr).fits
  rw [wellFormedRows, hfits, Bool.true_and, enteredRows_off hoff, noConflict_iff hrows]
  exact hfree.W2 p.P

/-- Within 32 bits `BUILD_FREQ` is `BUILD_TABLE` of the hand-over, whose rows are those of the merge (R99, R141). -/
theorem exec_buildFreq_eq_handOver {ps : List FreqPair} (hlen : ∀ r ∈ mergeRows ps, r.length ≤ 32) (s : State) :
    exec (.buildFreq ps) s = exec (.buildTable 0#8 (handOver ps)) s ∧ tableRows (handOver ps) = mergeRows ps := by
  have hbyte : ∀ r ∈ mergeRows ps, r.length < 256 := fun r hr => (hlen r hr).trans_lt (by decide)
  exact ⟨buildFreqIsBuildTableOfTheMerge s ps hbyte, tableRows_handOver hbyte⟩

/-- Settles O60: the codes of the merge are `PrefixFree` as supplied, and where they break W2 as entered the hand-over
is refused as any table is. -/
theorem buildFreqStopsOnlyUnderTheSwitch : Obligations.BuildFreqStopsOnlyUnderTheSwitch := by
  refine fun s ps hcap => ⟨fun hoff => ?_, fun ml hpass hbreaks => ?_⟩
  · rw [exec_buildFreq_withinCapacity hcap]
    cases herr : tableError 0 (mergeRows ps) with
    | some e => exact ⟨_, State.buildEntries_of_error herr s⟩
    | none =>
      obtain ⟨-, hpos, hlen, hrows⟩ := mergeRows_of_tableError_eq_none herr
      exact ⟨_, State.buildEntries_of_wellFormed herr
        (wellFormedRows_of_prefixFree hoff hrows (mergeCodesArePrefixFree ps hpos hlen))⟩
  · have hlen : ∀ r ∈ mergeRows ps, r.length ≤ 32 :=
      (forall_length_enteredRows (· ≤ 32)).1 fun r hr => (hpass.within r hr).trans hpass.bound
    obtain ⟨hexec, hrows⟩ := exec_buildFreq_eq_handOver hlen s
    rw [hexec]
    refine (buildTableIsRefusedWithoutMeaning s 0#8 (handOver ps)).2 ml (by rwa [count_handOver]) ?_ ?_
    · rwa [hrows]
    · rw [hrows]
      exact fun ⟨_, hW2⟩ => hbreaks hW2

/-! ## `BUILD_FREQ` makes its book (R142, R143) -/

/-- Settles O38: the rows of the merge pass the checks and are well formed, so the hand-over makes its book (O26). -/
theorem buildFreqMakesTheBookOfTheMerge : Obligations.BuildFreqMakesTheBookOfTheMerge := by
  intro s ps ml hcap htwo hpos hmax hml hW2
  obtain ⟨hmem, hle⟩ := hmax.derived rfl
  have hlen : ∀ r ∈ mergeRows ps, r.length ≤ 32 := fun r hr => (hle r hr).trans hml
  have hpass : PassesChecks 0 (mergeRows ps) ml :=
    ⟨fun hnil => by simp [hnil] at hmem, hmax, hml, hle, mergeRows_length_ne_zero htwo hpos⟩
  have hW2' : W2 s.params.P (enteredRows s.params (mergeRows ps)) := by
    cases hrev : s.params.lsbCodesReversed with
    | true => exact hW2 hrev
    | false =>
      rw [enteredRows_off hrev]
      exact (mergeCodesArePrefixFree ps hpos hlen).W2 s.params.P
  obtain ⟨hexec, hrows⟩ := exec_buildFreq_eq_handOver hlen s
  have hbook := buildTableMakesTheBook s 0#8 (handOver ps) ml (by rwa [count_handOver])
  rw [hrows] at hbook
  rw [hexec]
  exact hbook (hpass.entered s.params) (mergeRows_W1 hlen) hW2'

/-! ## The book of frequencies decodes every stream (R144 (C)) -/

/-- A `BUILD_FREQ` that answers `OK` has populated the book from rows that pass the checks. -/
theorem exec_buildFreq_ok {s u : State} {ps : List FreqPair} (h : exec (.buildFreq ps) s = .next u)
    (hok : u.response = some .ok) :
    tableError 0 (mergeRows ps) = none ∧ u.params = s.params ∧ u.bookValid = true ∧
      u.slot = populate s.params.P (effectiveMax 0 (mergeRows ps)) (enteredRows s.params (mergeRows ps)) := by
  obtain ⟨-, -, rfl⟩ := execBuildFreq_next h
  rcases s.build_cases 0 (enteredRows s.params (mergeRows ps)) with ⟨e, -, hb⟩ | ⟨herr, hb⟩
  · rw [hb] at hok
    cases hok
  · rw [tableError_enteredRows] at herr
    rw [hb, effectiveMax_enteredRows]
    exact ⟨herr, rfl, rfl, rfl⟩

/-- Settles O53: the entered rows are `PrefixFree` and weigh 1, so every stream begins with one of their codes. -/
theorem freqBookDecodesEveryStream : Obligations.FreqBookDecodesEveryStream := by
  intro s u ps c hfail hrev h hok
  obtain ⟨herr, hparams, hvalid, hslot⟩ := exec_buildFreq_ok h hok
  obtain ⟨hne, hpos, hlen, hrows⟩ := mergeRows_of_tableError_eq_none herr
  have hfree : PrefixFree (enteredRows s.params (mergeRows ps)) := by
    cases hsw : s.params.lsbCodesReversed with
    | true => exact hrev hsw
    | false =>
      rw [enteredRows_off hsw]
      exact mergeCodesArePrefixFree ps hpos hlen
  have hentered : ∀ r ∈ enteredRows s.params (mergeRows ps), r.Recordable (effectiveMax 0 (mergeRows ps)) :=
    fun r hr => ⟨(forall_length_enteredRows (1 ≤ ·)).2 (fun q hq => (hrows q hq).pos) r hr,
      (forall_length_enteredRows (· ≤ _)).2 (fun q hq => (hrows q hq).le) r hr,
      (mergeRows_W1 hlen).entered s.params r hr⟩
  have hkraft := (kraft_enteredRows s.params (mergeRows ps)).trans (mergeRows_kraft hne hpos)
  have hbook : BookOf u.params.P (effectiveMax 0 (mergeRows ps)) (enteredRows s.params (mergeRows ps)) u.slot := by
    rw [hparams, hslot]
    exact populate_bookOf hentered (hfree.W2 s.params.P)
  obtain ⟨r, hr, hresp⟩ := State.decodeSymbol_answers hbook hentered hfree hkraft c
  refine ⟨_, r.symbol, exec_decode_of_book hvalid (by rwa [hparams]) c, hresp, ?_⟩
  rw [← map_symbol_mergeRows, ← map_symbol_enteredRows s.params]
  exact List.mem_map_of_mem hr

end Sys2Proof.Machine
end

section
/-!
The family 42_decode.md: what `DECODE` answers, consumes and issues on each path (R151 to R158, R161), and that it
follows the code strings of the book's rows, in either bit order (R160, R162).
-/

namespace Sys2Proof.Machine

/-! ## The bucket scan (R90, R155 to R157) -/

@[simp] theorem Cursor.length_next (cur : Cursor) (n : Nat) : (cur.next n).length = n :=
  cur.length_bitsFrom cur.pos n

/-- The working code `w`, extended by the next `n` stream bits (R90). -/
def Cursor.extend (cur : Cursor) (w n : Nat) : Nat := w * 2 ^ n + val (cur.next n)

@[simp] theorem Cursor.extend_zero (cur : Cursor) (w : Nat) : cur.extend w 0 = w := by
  simp [Cursor.extend, Cursor.next, Cursor.bitsFrom]

theorem Cursor.extendCode_peek_one (cur : Cursor) (w : Nat) : extendCode w (cur.peek 1) = cur.extend w 1 := by
  rw [extendCode_eq w (cur.peek_lt 1), Cursor.peek_one, Cursor.extend, Nat.mul_comm]
  simp [Cursor.next, Cursor.bitsFrom, val_cons]

theorem Cursor.next_add (cur : Cursor) (m n : Nat) : cur.next (m + n) = cur.next m ++ (cur.advance m).next n := by
  rw [Cursor.next, cur.bitsFrom_add, Cursor.next, Cursor.next, Cursor.advance_bitsFrom, Cursor.advance_pos]

theorem Cursor.val_next_add (cur : Cursor) (m n : Nat) :
    val (cur.next (m + n)) = (cur.advance m).extend (val (cur.next m)) n := by
  rw [Cursor.next_add, val_append, Cursor.extend, Cursor.length_next]

theorem Cursor.extend_add (cur : Cursor) (w m n : Nat) :
    cur.extend w (m + n) = (cur.advance m).extend (cur.extend w m) n := by
  rw [Cursor.extend, Cursor.val_next_add, Cursor.extend, Cursor.extend, Cursor.extend, Nat.pow_add]
  ring

theorem workingCode_eq_extend (s : State) (c : CursorId) (i : Nat) :
    workingCode s c i = ((s.cursor c).advance s.params.P).extend (s.decodeIndex c) (i + 1) := by
  rw [workingCode, Cursor.extend, Cursor.next, Cursor.advance_bitsFrom, Cursor.advance_pos]

theorem State.pull_succ (s : State) (c : CursorId) (n : Nat) :
    s.pull c (n + 1) = ((s.pull c n).peek c 1).skip c 1 := by
  induction n generalizing s with
  | zero => rfl
  | succ n ih => exact ih ((s.peek c 1).skip c 1)

/-- The scan goes past `m` buckets without a match by pulling `m` bits into the working code (R155, R156). -/
theorem scanBuckets_skips {s : State} (hwf : Memory.wf s.mem) {c : CursorId} {m i w : Nat} (k : Nat)
    (hnone : ∀ j, j < m → findSymbol ((s.cursor c).extend w (j + 1)) (s.slot.bucket (i + j)) = none) :
    scanBuckets c (m + k) i w s = scanBuckets c k (i + m) ((s.cursor c).extend w m) (s.pull c m) := by
  induction m generalizing i w s with
  | zero => rw [Nat.zero_add, Cursor.extend_zero]; rfl
  | succ m ih =>
    have hcursor : ((s.peek c 1).skip c 1).cursor c = (s.cursor c).advance 1 := (s.peek c 1).skip_cursor_same hwf c 1
    have hextend : ∀ j, ((s.cursor c).advance 1).extend ((s.cursor c).extend w 1) j = (s.cursor c).extend w (j + 1) :=
      fun j => by rw [← Cursor.extend_add, Nat.add_comm]
    have hrest := ih ((s.peek c 1).wf_skip hwf c 1) (i := i + 1) (w := (s.cursor c).extend w 1) fun j hj => by
      rw [hcursor, hextend, Nat.add_assoc i, Nat.add_comm 1]
      exact hnone (j + 1) (Nat.succ_lt_succ hj)
    have hfirst : findSymbol ((s.cursor c).extend w 1) (s.slot.bucket i) = none := hnone 0 m.succ_pos
    rw [Nat.add_right_comm m 1 k, scanBuckets, Cursor.extendCode_peek_one, hfirst]
    rw [hcursor, hextend, Nat.add_assoc, Nat.add_comm 1] at hrest
    exact hrest

/-! ## The three answers of a decode against a book (R154 to R157) -/

section Decode
variable {s : State} {c : CursorId}

theorem State.decodeSymbol_of_hit {sym : Symbol} {len : Nat} (h : s.slot.entry (s.decodeIndex c) = .hit sym len) :
    s.decodeSymbol c = (s.opened c len).respond (.okSymbol sym) := by
  rw [State.decodeSymbol, h]
  rfl

theorem State.decodeSymbol_of_invalid (h : s.slot.entry (s.decodeIndex c) = .invalid) :
    s.decodeSymbol c = scanBuckets c s.nbuckets 0 (s.decodeIndex c) (s.opened c s.params.P) := by
  rw [State.decodeSymbol, h]
  rfl

/-- On a miss, the scan goes past the first `m` buckets when none of them has a pair for its working code. -/
theorem State.decodeSymbol_skips (hwf : Memory.wf s.mem) (h : s.slot.entry (s.decodeIndex c) = .invalid) {m : Nat}
    (hm : m ≤ s.nbuckets) (hnone : ∀ k, k < m → findSymbol (workingCode s c k) (s.slot.bucket k) = none) :
    s.decodeSymbol c = scanBuckets c (s.nbuckets - m) m
      (((s.cursor c).advance s.params.P).extend (s.decodeIndex c) m) ((s.opened c s.params.P).pull c m) := by
  obtain ⟨hcursor, -⟩ := s.opened_onlyMoves hwf c s.params.P
  have hscan := scanBuckets_skips (s.wf_opened hwf c s.params.P) (c := c) (m := m) (i := 0) (w := s.decodeIndex c)
    (s.nbuckets - m) fun j hj => by
      rw [hcursor, ← workingCode_eq_extend, Nat.zero_add]
      exact hnone j hj
  rwa [Nat.add_sub_cancel' hm, hcursor, Nat.zero_add, ← State.decodeSymbol_of_invalid h] at hscan

theorem State.opened_pull_onlyMoves (hwf : Memory.wf s.mem) (c : CursorId) (n k : Nat) :
    OnlyMoves c (n + k) s ((s.opened c n).pull c k) :=
  (s.opened_onlyMoves hwf c n).trans (State.pull_onlyMoves (s.wf_opened hwf c n) c k)

theorem State.decodeSymbol_of_match (hwf : Memory.wf s.mem) (h : s.slot.entry (s.decodeIndex c) = .invalid) {i : Nat}
    (hi : i < s.nbuckets) (hnone : ∀ k, k < i → findSymbol (workingCode s c k) (s.slot.bucket k) = none)
    {sym : Symbol} (hsome : findSymbol (workingCode s c i) (s.slot.bucket i) = some sym) :
    s.decodeSymbol c = ((s.opened c s.params.P).pull c (i + 1)).respond (.okSymbol sym) := by
  obtain ⟨hcursor, -⟩ := State.opened_pull_onlyMoves hwf c s.params.P i
  obtain ⟨-, -, hslot, -⟩ := State.pull_frame c i (s.opened c s.params.P)
  have hcode : extendCode (((s.cursor c).advance s.params.P).extend (s.decodeIndex c) i)
      ((((s.opened c s.params.P).pull c i).cursor c).peek 1) = workingCode s c i := by
    rw [hcursor, Cursor.extendCode_peek_one, ← Cursor.advance_advance, ← Cursor.extend_add, workingCode_eq_extend]
  have hfind : findSymbol (workingCode s c i) (((s.opened c s.params.P).pull c i).slot.bucket i) = some sym := by
    rw [hslot]
    exact hsome
  rw [State.decodeSymbol_skips hwf h hi.le hnone, ← Nat.succ_pred_eq_of_pos (Nat.sub_pos_of_lt hi), scanBuckets, hcode,
    hfind, State.pull_succ]

theorem State.decodeSymbol_of_no_match (hwf : Memory.wf s.mem) (h : s.slot.entry (s.decodeIndex c) = .invalid)
    (hnone : ∀ k, k < s.nbuckets → findSymbol (workingCode s c k) (s.slot.bucket k) = none) :
    s.decodeSymbol c = ((s.opened c s.params.P).pull c s.nbuckets).respond (.error .invalidCode) := by
  rw [State.decodeSymbol_skips hwf h le_rfl hnone, Nat.sub_self]
  exact State.raise_other _ rfl

/-- What a decode that skips `n` bits and pulls `k` more issues, and what it leaves alone (R161). -/
theorem State.opened_pull_respond (hwf : Memory.wf s.mem) (c : CursorId) (n k : Nat) (r : Response) :
    OnlyMoves c (n + k) s (((s.opened c n).pull c k).respond r) ∧
    (((s.opened c n).pull c k).respond r).requests =
      s.requests ++ opening s c n ++ pulls c (s.cursor c) ((s.cursor c).pos + n) k ∧
    SameEngine s (((s.opened c n).pull c k).respond r) ∧ (((s.opened c n).pull c k).respond r).inbox = s.inbox := by
  obtain ⟨hcursor, -⟩ := s.opened_onlyMoves hwf c n
  obtain ⟨hparams, hvalid, hslot, hdraws, hinbox, -⟩ := State.pull_frame c k (s.opened c n)
  refine ⟨State.opened_pull_onlyMoves hwf c n k, ?_, ⟨hparams, hvalid, hslot, hdraws⟩, hinbox⟩
  rw [State.respond_requests, State.pull_requests (s.wf_opened hwf c n), State.opened_requests, hcursor, pulls_advance,
    Cursor.advance_pos]

end Decode

/-- Settles O43: without a book a decode only answers. -/
theorem decodeWithoutABookAnswersNoBook : Obligations.DecodeWithoutABookAnswersNoBook :=
  fun _ c hb => exec_decode_of_noBook hb c

/-- Settles O44: a hit skips the entry's length and pulls no bit. -/
theorem decodeHitConsumesTheEntryLength : Obligations.DecodeHitConsumesTheEntryLength := by
  intro s c sym len hb hfail hwf hhit
  obtain ⟨hmoves, hrequests, hframe⟩ := State.opened_pull_respond hwf c len 0 (.okSymbol sym)
  refine ⟨_, exec_decode_of_book hb hfail c, ?_⟩
  rw [State.decodeSymbol_of_hit hhit]
  rw [pulls_zero, List.append_nil] at hrequests
  exact ⟨rfl, hmoves, hrequests, hframe⟩

/-- Settles O45: the first match in the order of the scan is what `findSymbol` finds in bucket `i`. -/
theorem decodeMissAnswersTheFirstBucketMatch : Obligations.DecodeMissAnswersTheFirstBucketMatch := by
  intro s c i pre p post hb hfail hwf hmiss hi hbefore hsplit hpre hp
  have hfind : findSymbol (workingCode s c i) (s.slot.bucket i) = some p.symbol :=
    findSymbol_eq_some.2 ⟨pre, p, post, hsplit, hpre, hp, rfl⟩
  refine ⟨_, exec_decode_of_book hb hfail c, ?_⟩
  rw [State.decodeSymbol_of_match hwf hmiss hi (fun k hk => findSymbol_eq_none.2 (hbefore k hk)) hfind]
  exact ⟨rfl, State.opened_pull_respond hwf c s.params.P (i + 1) _⟩

/-- Settles O46: the scan pulls a bit for every bucket and then fails. -/
theorem decodeWithoutAMatchAnswersInvalidCode : Obligations.DecodeWithoutAMatchAnswersInvalidCode := by
  intro s c hb hfail hwf hmiss hnone
  refine ⟨_, exec_decode_of_book hb hfail c, ?_⟩
  rw [State.decodeSymbol_of_no_match hwf hmiss fun k hk => findSymbol_eq_none.2 (hnone k hk)]
  exact ⟨rfl, State.opened_pull_respond hwf c s.params.P s.nbuckets _⟩

/-! ## Both bit orders (R160, R162 (h)) -/

/-- What a decode against a book does is fixed by the book, the index and the working codes. -/
theorem State.decodeSymbol_congr {s s' : State} {c : CursorId} (hwf : Memory.wf s.mem) (hwf' : Memory.wf s'.mem)
    (hparams : s'.params = s.params) (hslot : s'.slot = s.slot) (hindex : s'.decodeIndex c = s.decodeIndex c)
    (hcode : workingCode s' c = workingCode s c) :
    ∃ n k r, s.decodeSymbol c = ((s.opened c n).pull c k).respond r ∧
      s'.decodeSymbol c = ((s'.opened c n).pull c k).respond r := by
  have hbuckets : s'.nbuckets = s.nbuckets := by rw [State.nbuckets, State.nbuckets, hparams, hslot]
  cases hentry : s.slot.entry (s.decodeIndex c) with
  | hit sym len =>
    exact ⟨len, 0, _, State.decodeSymbol_of_hit hentry, State.decodeSymbol_of_hit (by rwa [hslot, hindex])⟩
  | invalid =>
    have hentry' : s'.slot.entry (s'.decodeIndex c) = .invalid := by rwa [hslot, hindex]
    by_cases hmatch : ∃ i, i < s.nbuckets ∧ findSymbol (workingCode s c i) (s.slot.bucket i) ≠ none
    · obtain ⟨hi, hsome⟩ := Nat.find_spec hmatch
      obtain ⟨sym, hsym⟩ := Option.ne_none_iff_exists'.1 hsome
      have hbefore : ∀ k, k < Nat.find hmatch → findSymbol (workingCode s c k) (s.slot.bucket k) = none :=
        fun k hk => not_not.1 fun hne => Nat.find_min hmatch hk ⟨hk.trans hi, hne⟩
      refine ⟨_, _, _, State.decodeSymbol_of_match hwf hentry hi hbefore hsym, ?_⟩
      rw [← hparams]
      exact State.decodeSymbol_of_match hwf' hentry' (by rwa [hbuckets]) (by rwa [hcode, hslot]) (by rwa [hcode, hslot])
    · have hnone : ∀ k, k < s.nbuckets → findSymbol (workingCode s c k) (s.slot.bucket k) = none :=
        fun k hk => not_not.1 fun hne => hmatch ⟨k, hk, hne⟩
      refine ⟨_, _, _, State.decodeSymbol_of_no_match hwf hentry hnone, ?_⟩
      rw [← hparams, ← hbuckets]
      exact State.decodeSymbol_of_no_match hwf' hentry' (by rwa [hbuckets, hcode, hslot])

/-- The cursor in the other mode, which it truthfully reports, over the same bits (R162). -/
def Cursor.reordered (cur : Cursor) : Cursor := { cur with msb := !cur.msb, reportsMsb := !cur.msb }

@[simp] theorem Cursor.reordered_pos (cur : Cursor) : cur.reordered.pos = cur.pos := rfl

theorem Cursor.reordered_truthful (cur : Cursor) : cur.reordered.Truthful := rfl

@[simp] theorem Cursor.reordered_bitsFrom (cur : Cursor) (k n : Nat) :
    cur.reordered.bitsFrom k n = cur.bitsFrom k n := by
  induction n generalizing k with
  | zero => rfl
  | succ n ih => rw [Cursor.bitsFrom, Cursor.bitsFrom, ih]; rfl

/-- Settles O50: a truthful cursor's index and working codes are values of its stream bits, which both orders share. -/
theorem decodeIsTheSameInBothBitOrders : Obligations.DecodeIsTheSameInBothBitOrders := by
  intro s t c hwf htrue h
  change ∃ t', exec (.decode c) (s.setCursor c (s.cursor c).reordered) = .next t' ∧ _
  generalize hs' : s.setCursor c (s.cursor c).reordered = s'
  have hwf' : Memory.wf s'.mem := hs' ▸ s.wf_setCursor hwf c _
  have hcursor : s'.cursor c = (s.cursor c).reordered := hs' ▸ s.cursor_setCursor_same hwf c _
  have hparams : s'.params = s.params := hs' ▸ rfl
  have hvalid : s'.bookValid = s.bookValid := hs' ▸ rfl
  have hslot : s'.slot = s.slot := hs' ▸ rfl
  rcases execDecode_next h with ⟨hb, rfl⟩ | ⟨hb, hfail, rfl⟩
  · exact ⟨_, exec_decode_of_noBook (hvalid.trans hb) c, rfl, by simp [hcursor]⟩
  · have hindex : s'.decodeIndex c = s.decodeIndex c := by
      rw [State.decodeIndex_of_truthful htrue, State.decodeIndex_of_truthful (hcursor ▸ Cursor.reordered_truthful _),
        hparams, hcursor, Cursor.next, Cursor.reordered_bitsFrom, Cursor.reordered_pos, Cursor.next]
    have hcode : workingCode s' c = workingCode s c := by
      funext i
      rw [workingCode, workingCode, hindex, hparams, hcursor, Cursor.reordered_bitsFrom, Cursor.reordered_pos]
    obtain ⟨n, k, r, hrun, hrun'⟩ := State.decodeSymbol_congr hwf hwf' hparams hslot hindex hcode
    obtain ⟨hmoved, -⟩ := State.opened_pull_onlyMoves hwf c n k
    obtain ⟨hmoved', -⟩ := State.opened_pull_onlyMoves hwf' c n k
    refine ⟨_, exec_decode_of_book (hvalid.trans hb) (by rwa [hparams]) c, ?_⟩
    rw [hrun, hrun', State.respond_cursor, State.respond_cursor, hmoved, hmoved', hcursor]
    exact ⟨rfl, rfl⟩

/-! ## The code strings and the stream (R160) -/

/-- The row's bit string stands next in the stream. -/
def TableRow.StandsNext (r : TableRow) (cur : Cursor) : Prop := cur.next r.length = r.string

/-- The high bits of a run of stream bits are its first bits. -/
theorem Cursor.val_next_div (cur : Cursor) {m n : Nat} (h : m ≤ n) :
    val (cur.next n) / 2 ^ (n - m) = val (cur.next m) := by
  have hrest := val_lt ((cur.advance m).next (n - m))
  rw [Cursor.length_next] at hrest
  rw [← Nat.add_sub_cancel' h, Cursor.val_next_add, Nat.add_sub_cancel_left, Cursor.extend, Nat.mul_comm,
    Nat.mul_add_div (Nat.two_pow_pos _), Nat.div_eq_of_lt hrest, Nat.add_zero]

theorem Cursor.next_prefix (cur : Cursor) (m n : Nat) : cur.next m <+: cur.next (m + n) := by
  rw [Cursor.next_add]
  exact List.prefix_append _ _

theorem TableRow.Recordable.standsNext_iff {ml : Nat} {r : TableRow} (hr : r.Recordable ml) {cur : Cursor} :
    r.StandsNext cur ↔ val (cur.next r.length) = r.code.toNat := by
  constructor
  · intro h
    rw [h, TableRow.string, val_str hr.fits]
  · intro h
    have hstr := str_val (cur.next r.length)
    rw [Cursor.length_next, h] at hstr
    exact hstr.symm

/-- At most one of `PrefixFree` rows stands next. -/
theorem PrefixFree.standsNext_unique {rows : List TableRow} (hfree : PrefixFree rows) {cur : Cursor} {r q : TableRow}
    (hr : r ∈ rows) (hq : q ∈ rows) (hrnext : r.StandsNext cur) (hqnext : q.StandsNext cur) : q = r := by
  by_contra hne
  have hsymm : Std.Symm fun a b : TableRow => Incomparable a.string b.string := ⟨fun _ _ => And.symm⟩
  have hpair : rows.Pairwise fun a b => Incomparable a.string b.string := hfree
  obtain ⟨hqr, hrq⟩ := hpair.forall hq hr hne
  have hrprefix := cur.next_prefix r.length q.length
  have hqprefix := cur.next_prefix q.length r.length
  rw [hrnext] at hrprefix
  rw [hqnext, Nat.add_comm] at hqprefix
  exact (List.prefix_or_prefix_of_prefix hqprefix hrprefix).elim hqr hrq

section Follows
variable {s : State} {c : CursorId} {ml : Nat} {rows : List TableRow}

theorem workingCode_of_truthful (htrue : (s.cursor c).Truthful) (i : Nat) :
    workingCode s c i = val ((s.cursor c).next (s.params.P + 1 + i)) := by
  rw [workingCode_eq_extend, State.decodeIndex_of_truthful htrue, ← Cursor.val_next_add, Nat.add_comm i, Nat.add_assoc]

/-- A short row covers the index exactly when it stands next (R88, R89). -/
theorem TableRow.Recordable.covers_decodeIndex_iff {r : TableRow} (hr : r.Recordable ml)
    (htrue : (s.cursor c).Truthful) :
    Covers s.params.P r (s.decodeIndex c) ↔ r.length ≤ s.params.P ∧ r.StandsNext (s.cursor c) := by
  rw [Covers, and_iff_right (s.decodeIndex_lt c), hr.standsNext_iff, State.decodeIndex_of_truthful htrue]
  exact and_congr_right fun hle => by rw [Cursor.val_next_div _ hle]

/-- A long row has the working code of its bucket exactly when it stands next (R91, R156). -/
theorem TableRow.Recordable.code_eq_workingCode_iff {r : TableRow} (hr : r.Recordable ml)
    (htrue : (s.cursor c).Truthful) {i : Nat} (hlen : r.length = s.params.P + 1 + i) :
    r.code.toNat = workingCode s c i ↔ r.StandsNext (s.cursor c) := by
  rw [hr.standsNext_iff, workingCode_of_truthful htrue, hlen, eq_comm]

theorem BookOf.entry_eq_invalid (hb : BookOf s.params.P ml rows s.slot) (hrows : ∀ r ∈ rows, r.Recordable ml)
    (htrue : (s.cursor c).Truthful)
    (hno : ∀ r ∈ rows, r.length ≤ s.params.P → ¬ r.StandsNext (s.cursor c)) :
    s.slot.entry (s.decodeIndex c) = .invalid :=
  hb.uncovered _ fun r hr hcov => by
    obtain ⟨hle, hnext⟩ := ((hrows r hr).covers_decodeIndex_iff htrue).1 hcov
    exact hno r hr hle hnext

theorem BookOf.findSymbol_eq_none (hb : BookOf s.params.P ml rows s.slot) (hrows : ∀ r ∈ rows, r.Recordable ml)
    (htrue : (s.cursor c).Truthful) {i : Nat}
    (hno : ∀ r ∈ rows, r.length = s.params.P + 1 + i → ¬ r.StandsNext (s.cursor c)) :
    findSymbol (workingCode s c i) (s.slot.bucket i) = none :=
  Machine.findSymbol_eq_none.2 fun p hp hcode => by
    obtain ⟨r, hr, hlen, rfl⟩ := hb.mem_bucket.1 hp
    exact hno r hr hlen (((hrows r hr).code_eq_workingCode_iff htrue hlen).1 hcode)

/-- In the bucket of the row that stands next, whatever matches is that row. -/
theorem BookOf.findSymbol_eq_some (hb : BookOf s.params.P ml rows s.slot) (hrows : ∀ r ∈ rows, r.Recordable ml)
    (hfree : PrefixFree rows) (htrue : (s.cursor c).Truthful) {r : TableRow} (hr : r ∈ rows) {i : Nat}
    (hlen : r.length = s.params.P + 1 + i) (hnext : r.StandsNext (s.cursor c)) :
    findSymbol (workingCode s c i) (s.slot.bucket i) = some r.symbol := by
  cases hfind : findSymbol (workingCode s c i) (s.slot.bucket i) with
  | none =>
    exact absurd (((hrows r hr).code_eq_workingCode_iff htrue hlen).2 hnext)
      (Machine.findSymbol_eq_none.1 hfind ⟨r.code, r.symbol⟩ (hb.mem_bucket.2 ⟨r, hr, hlen, rfl⟩))
  | some sym =>
    obtain ⟨pre, p, post, hsplit, -, hcode, rfl⟩ := Machine.findSymbol_eq_some.1 hfind
    obtain ⟨q, hq, hqlen, rfl⟩ := hb.mem_bucket.1 (show p ∈ s.slot.bucket i by simp [hsplit])
    have hqnext := ((hrows q hq).code_eq_workingCode_iff htrue hqlen).1 hcode
    rw [hfree.standsNext_unique hr hq hnext hqnext]

/-- Against the book of `PrefixFree` rows, a decode answers the row that stands next and consumes its string. -/
theorem exec_decode_of_standsNext (hvalid : s.bookValid = true) (hfail : s.params.cursorCanFail = false)
    (hwf : Memory.wf s.mem) (hb : BookOf s.params.P ml rows s.slot) (hrows : ∀ r ∈ rows, r.Recordable ml)
    (hfree : PrefixFree rows) (htrue : (s.cursor c).Truthful) {r : TableRow} (hr : r ∈ rows)
    (hnext : r.StandsNext (s.cursor c)) :
    ∃ v, exec (.decode c) s = .next v ∧ v.response = some (.okSymbol r.symbol) ∧ OnlyMoves c r.length s v := by
  refine ⟨_, exec_decode_of_book hvalid hfail c, ?_⟩
  rcases Nat.lt_or_ge s.params.P r.length with hlong | hshort
  · obtain ⟨i, hlen⟩ := Nat.exists_eq_add_of_lt hlong
    have hlen' : r.length = s.params.P + 1 + i := by omega
    have hi : i < s.nbuckets := by
      have hle := (hrows r hr).le
      rw [State.nbuckets, hb.maxLen]
      omega
    have hother : ∀ q ∈ rows, q.length ≠ r.length → ¬ q.StandsNext (s.cursor c) := fun q hq hne hqnext =>
      hne (by rw [hfree.standsNext_unique hr hq hnext hqnext])
    have hmiss := hb.entry_eq_invalid hrows htrue fun q hq hle => hother q hq (by omega)
    have hbefore : ∀ k, k < i → findSymbol (workingCode s c k) (s.slot.bucket k) = none := fun k hk =>
      hb.findSymbol_eq_none hrows htrue fun q hq hqlen => hother q hq (by omega)
    rw [State.decodeSymbol_of_match hwf hmiss hi hbefore (hb.findSymbol_eq_some hrows hfree htrue hr hlen' hnext), hlen]
    exact ⟨rfl, State.opened_pull_onlyMoves hwf c s.params.P (i + 1)⟩
  · have hhit := hb.covered r hr _ (((hrows r hr).covers_decodeIndex_iff htrue).2 ⟨hshort, hnext⟩)
    rw [State.decodeSymbol_of_hit hhit]
    exact ⟨rfl, s.opened_onlyMoves hwf c r.length⟩

/-- When no row stands next, a decode misses the table and every bucket. -/
theorem exec_decode_of_none_standsNext (hvalid : s.bookValid = true) (hfail : s.params.cursorCanFail = false)
    (hwf : Memory.wf s.mem) (hb : BookOf s.params.P ml rows s.slot) (hrows : ∀ r ∈ rows, r.Recordable ml)
    (htrue : (s.cursor c).Truthful) (hno : ∀ r ∈ rows, ¬ r.StandsNext (s.cursor c)) :
    ∃ v, exec (.decode c) s = .next v ∧ v.response = some (.error .invalidCode) ∧
      OnlyMoves c (s.params.P + s.nbuckets) s v := by
  have hmiss := hb.entry_eq_invalid hrows htrue fun r hr _ => hno r hr
  have hnone : ∀ k, k < s.nbuckets → findSymbol (workingCode s c k) (s.slot.bucket k) = none := fun _ _ =>
    hb.findSymbol_eq_none hrows htrue fun r hr _ => hno r hr
  refine ⟨_, exec_decode_of_book hvalid hfail c, ?_⟩
  rw [State.decodeSymbol_of_no_match hwf hmiss hnone]
  exact ⟨rfl, State.opened_pull_onlyMoves hwf c s.params.P s.nbuckets⟩

end Follows

/-! ## Decoding after a build (R160, R144) -/

/-- A build that answers `OK` has made the book of the rows as they entered, when those are `PrefixFree`. -/
theorem State.buildEntries_ok {s u : State} {maxLength : Nat} {rows : List TableRow}
    (h : s.buildEntries maxLength rows = .next u) (hok : u.response = some .ok)
    (hfree : PrefixFree (enteredRows s.params rows)) :
    u.bookValid = true ∧ u.params = s.params ∧
      (∀ r ∈ enteredRows s.params rows, r.Recordable (effectiveMax maxLength rows)) ∧
      BookOf u.params.P (effectiveMax maxLength rows) (enteredRows s.params rows) u.slot := by
  obtain ⟨hwell, rfl⟩ := s.buildEntries_next h
  rcases s.build_cases maxLength (enteredRows s.params rows) with ⟨e, -, hb⟩ | ⟨herr, hb⟩
  · rw [hb] at hok
    cases hok
  · have ⟨_, _, hle, hpos⟩ := tableError_eq_none.1 herr
    rw [tableError_enteredRows] at herr
    rw [effectiveMax_enteredRows] at hb hle
    have hfits := code_lt_of_wellFormedRows (hwell herr)
    have hrows : ∀ r ∈ enteredRows s.params rows, r.Recordable (effectiveMax maxLength rows) :=
      fun r hr => ⟨Nat.one_le_iff_ne_zero.2 (hpos r hr), hle r hr, hfits r hr⟩
    rw [hb]
    exact ⟨rfl, rfl, hrows, populate_bookOf hrows (hfree.W2 s.params.P)⟩

/-- Settles O51: the build has made the book of the entered rows, which a decode follows. -/
theorem decodeFollowsAPrefixFreeTable : Obligations.DecodeFollowsAPrefixFreeTable := by
  intro s u maxLength t c hfail hwf h hok hfree htrue
  have hwf' := exec_wf hwf h
  obtain ⟨hcap, -⟩ := execBuildTable_next h
  rw [exec_buildTable_withinCapacity hcap] at h
  obtain ⟨hvalid, hparams, hrows, hbook⟩ := State.buildEntries_ok h hok hfree
  have hfail' : u.params.cursorCanFail = false := by rwa [hparams]
  exact ⟨fun _ => exec_decode_of_standsNext hvalid hfail' hwf' hbook hrows hfree htrue,
    exec_decode_of_none_standsNext hvalid hfail' hwf' hbook hrows htrue⟩

/-- Settles O52: the entered rows of the merge are `PrefixFree`, by R144 (F) or, under the switch, by the premise. -/
theorem decodeFollowsTheMergeCodes : Obligations.DecodeFollowsTheMergeCodes := by
  intro s u ps c hfail hwf hrev h hok htrue r hr hnext
  have hwf' := exec_wf hwf h
  obtain ⟨herr, -⟩ := exec_buildFreq_ok h hok
  obtain ⟨-, hpos, hlen, -⟩ := mergeRows_of_tableError_eq_none herr
  have hfree : PrefixFree (enteredRows s.params (mergeRows ps)) := by
    cases hsw : s.params.lsbCodesReversed with
    | true => exact hrev hsw
    | false =>
      rw [enteredRows_off hsw]
      exact mergeCodesArePrefixFree ps hpos hlen
  obtain ⟨hcap, -⟩ := execBuildFreq_next h
  rw [exec_buildFreq_withinCapacity hcap] at h
  obtain ⟨hvalid, hparams, hrows, hbook⟩ := State.buildEntries_ok h hok hfree
  exact exec_decode_of_standsNext hvalid (by rwa [hparams]) hwf' hbook hrows hfree htrue hr hnext

end Sys2Proof.Machine
end

section
/-!
The family 60_exceptions.md: what is answered and what has no meaning (R179, R112, R131), and the machine after a build
error (R182).
-/

namespace Sys2Proof.Machine

/-! ## A decoded launch is answered (R179) -/

/-- A build from entries goes on, or the entries break W1 or W2 (R112). -/
theorem State.buildEntries_answered (s : State) (maxLength : Nat) (rows : List TableRow) :
    (∃ u, s.buildEntries maxLength rows = .next u) ∨
      (s.buildEntries maxLength rows = .refused .illFormedTable ∧ wellFormedRows s.params rows = false) := by
  cases herr : tableError maxLength rows with
  | some e => exact .inl ⟨_, State.buildEntries_of_error herr s⟩
  | none =>
    cases hwell : wellFormedRows s.params rows with
    | true => exact .inl ⟨_, State.buildEntries_of_wellFormed herr hwell⟩
    | false => exact .inr ⟨s.buildEntries_refused.2 ⟨herr, hwell⟩, rfl⟩

/-- The default `NMAX` is the largest count an operand can hold (R7, R8). -/
theorem count_le_nmax {p : Params} (hnmax : p.nmax = 0xFFFFFFFF#32) {n : Nat} (hn : n < 2 ^ 32) :
    n ≤ p.nmax.toNat := by
  rw [hnmax]
  exact Nat.le_of_lt_succ hn

theorem exec_buildTable_answered {s : State} {t : TableOperand} (hcap : t.count ≤ s.params.nmax.toNat)
    (maxLength : Byte) :
    (∃ u, exec (.buildTable maxLength t) s = .next u) ∨
      (exec (.buildTable maxLength t) s = .refused .illFormedTable ∧
        wellFormedRows s.params (tableRows t) = false) := by
  rw [exec_buildTable_withinCapacity hcap]
  exact s.buildEntries_answered maxLength.toNat (tableRows t)

/-- `BUILD_FREQ` is total with the switch off (O60); with it on it is the build from the rows of the merge (R99). -/
theorem exec_buildFreq_answered {s : State} {ps : List FreqPair} (hcap : ps.length ≤ s.params.nmax.toNat) :
    (∃ u, exec (.buildFreq ps) s = .next u) ∨
      (exec (.buildFreq ps) s = .refused .illFormedTable ∧ s.params.lsbCodesReversed = true ∧
        wellFormedRows s.params (mergeRows ps) = false) := by
  cases hsw : s.params.lsbCodesReversed with
  | false => exact .inl ((buildFreqStopsOnlyUnderTheSwitch s ps hcap).1 hsw)
  | true =>
    rw [exec_buildFreq_withinCapacity hcap]
    exact (s.buildEntries_answered 0 (mergeRows ps)).imp_right fun ⟨href, hill⟩ => ⟨href, rfl, hill⟩

/-- Settles O9: what decodes fits its operands (O13), so no build is above capacity and each is answered unless its
entries are ill formed; a `DECODE` and the requests always go on. -/
theorem everyDecodedLaunchIsAnswered : Obligations.EveryDecodedLaunchIsAnswered := by
  intro s tr rest i hnmax hfail hs hi
  have hstep : step s = exec i s.accept := (step_cons hs).trans (runLaunch_of_decode hi s.accept)
  have ⟨hwf, _⟩ := encodeOfDecodeIsIdentity tr i hi
  rw [State.StepsOn, hstep]
  cases i with
  | buildTable maxLength t =>
    have hcap : t.count ≤ s.accept.params.nmax.toNat := count_le_nmax hnmax (of_decide_eq_true hwf)
    exact (exec_buildTable_answered hcap maxLength).imp_right
      fun ⟨href, hill⟩ => ⟨href, .inl ⟨maxLength, t, rfl, hill⟩⟩
  | buildFreq ps =>
    have hcap : ps.length ≤ s.accept.params.nmax.toNat := count_le_nmax hnmax (of_decide_eq_true hwf)
    exact (exec_buildFreq_answered hcap).imp_right
      fun ⟨href, hsw, hill⟩ => ⟨href, .inr ⟨hsw, ps, rfl, hill⟩⟩
  | decode c => exact .inl (exec_decode_goesOn (s := s.accept) hfail c)
  | isMsbFirst c => exact .inl ⟨_, rfl⟩
  | peekBits c n => exact .inl ⟨_, exec_peekBits (s := s.accept) hfail c n⟩
  | skip c n => exact .inl ⟨_, rfl⟩

/-! ## After a build error (R182) -/

/-- Settles O31: a build that answers an error leaves no book (O30), and a decode without one only answers (R151). -/
theorem decodeAfterAFailedBuildFindsNoBook : Obligations.DecodeAfterAFailedBuildFindsNoBook := by
  intro s u i e c hi h herr
  obtain ⟨hanswer, -, hmem, -⟩ := bookIsValidExactlyAfterSuccess s u i hi h
  have hnoBook : u.bookValid = false := by
    rcases hanswer with ⟨hok, -⟩ | ⟨-, hb⟩
    · rw [herr] at hok
      cases hok
    · exact hb
  exact ⟨_, exec_decode_of_noBook hnoBook c, rfl, hmem⟩

end Sys2Proof.Machine
end

section
/-!
The family 70_reset_and_hazards.md: a reset inside a command (R201), and the host's part in the cursors (R204, R217).
-/

namespace Sys2Proof.Machine

/-! ## The host and its cursors (R204, R217) -/

/-- Writing a cursor changes it alone, and not the engine. -/
theorem State.setCursor_only {s : State} (hwf : Memory.wf s.mem) (c : CursorId) (cur : Cursor) :
    (s.setCursor c cur).cursor c = cur ∧ (∀ h, h ≠ c → (s.setCursor c cur).cursor h = s.cursor h) ∧
      SameEngine s (s.setCursor c cur) :=
  ⟨s.cursor_setCursor_same hwf c cur, fun _ hne => s.cursor_setCursor_other hne cur, .refl s⟩

/-- Settles O55: both inputs write one cursor on the accepted state, which has the cursors and the engine of `s`. -/
theorem hostPlacesAndRepositionsCursors : Obligations.HostPlacesAndRepositionsCursors :=
  fun s c _ hwf =>
    ⟨fun cur hs => ⟨_, step_cons hs, State.setCursor_only (s := s.accept) hwf c cur⟩,
      fun _ hs => ⟨_, step_cons hs, State.setCursor_only (s := s.accept) hwf c _⟩⟩

/-! ## Requests that are those of a run (R161, R201)

A reset inside a command issues the requests of the whole command again, as far as they went. It reaches what the
command had reached when each of them gets the reply on record. -/

/-- Issued again on `s`, the request gets the reply on record, and moves no cursor but `c`. -/
structure State.Replays (c : CursorId) (s : State) (e : Exchange) : Prop where
  requests : (s.reissue e).requests = s.requests ++ [e]
  moves : OnlyMoves c e.bits s (s.reissue e)

/-- Issued again in order from `s` on, the requests get the replies on record, and move no cursor but `c`. -/
def State.ReplaysAll (c : CursorId) : State → List Exchange → Prop
  | _, [] => True
  | s, e :: es => s.Replays c e ∧ (s.reissue e).ReplaysAll c es

theorem State.replays_isMsbFirst (c : CursorId) (s : State) :
    s.Replays c (.isMsbFirst c (s.cursor c).reportsMsb) :=
  ⟨rfl, .refl c s⟩

theorem State.replays_peekBits (c : CursorId) (s : State) (n : Nat) :
    s.Replays c (.peekBits c n (BitVec.ofNat 32 ((s.cursor c).peek n))) :=
  ⟨rfl, .refl c s⟩

theorem State.replays_skip {s : State} (hwf : Memory.wf s.mem) (c : CursorId) (n : Nat) : s.Replays c (.skip c n) :=
  ⟨rfl, s.skip_cursor_same hwf c n, fun _ hne => s.skip_cursor_other hne n⟩

section ReplaysAll
variable {c : CursorId} {s : State} {es : List Exchange}

theorem State.ReplaysAll.append {fs : List Exchange} (hes : s.ReplaysAll c es)
    (hfs : (es.foldl State.reissue s).ReplaysAll c fs) : s.ReplaysAll c (es ++ fs) := by
  induction es generalizing s with
  | nil => exact hfs
  | cons e es ih =>
    obtain ⟨he, hrest⟩ := hes
    exact ⟨he, ih hrest hfs⟩

theorem State.ReplaysAll.take (h : s.ReplaysAll c es) (k : Nat) : s.ReplaysAll c (es.take k) := by
  induction es generalizing s k with
  | nil => simpa using h
  | cons e es ih =>
    obtain ⟨he, hrest⟩ := h
    cases k with
    | zero => trivial
    | succ k => exact ⟨he, ih hrest k⟩

theorem State.ReplaysAll.requests (h : s.ReplaysAll c es) :
    (es.foldl State.reissue s).requests = s.requests ++ es := by
  induction es generalizing s with
  | nil => simp
  | cons e es ih =>
    obtain ⟨he, hrest⟩ := h
    rw [List.foldl_cons, ih hrest, he.requests, List.append_assoc, List.singleton_append]

theorem State.ReplaysAll.moves (h : s.ReplaysAll c es) :
    OnlyMoves c (skipped es) s (es.foldl State.reissue s) := by
  induction es generalizing s with
  | nil => exact .refl c s
  | cons e es ih =>
    obtain ⟨he, hrest⟩ := h
    rw [skipped_cons]
    exact he.moves.trans (ih hrest)

end ReplaysAll

theorem State.replaysAll_opening {s : State} (hwf : Memory.wf s.mem) (c : CursorId) (n : Nat) :
    s.ReplaysAll c (opening s c n) :=
  ⟨s.replays_isMsbFirst c, (s.askMsbFirst c).replays_peekBits c s.params.P,
    State.replays_skip (s := (s.askMsbFirst c).peek c s.params.P) hwf c n, trivial⟩

theorem foldl_reissue_opening (s : State) (c : CursorId) (n : Nat) :
    (opening s c n).foldl State.reissue s = s.opened c n := rfl

theorem State.replaysAll_pulls {s : State} (hwf : Memory.wf s.mem) (c : CursorId) (n : Nat) :
    s.ReplaysAll c (pulls c (s.cursor c) (s.cursor c).pos n) := by
  induction n generalizing s with
  | zero => trivial
  | succ n ih =>
    have hrest := ih ((s.peek c 1).wf_skip hwf c 1)
    have hpeek := s.replays_peekBits c 1
    rw [State.skip_cursor_same (s.peek c 1) hwf] at hrest
    rw [Cursor.peek_one] at hpeek
    rw [pulls_succ]
    exact ⟨hpeek, State.replays_skip (s := s.peek c 1) hwf c 1, hrest⟩

/-! ## How far the first requests of a decode move its cursor (R158) -/

@[simp] theorem skipped_pulls (c : CursorId) (cur : Cursor) (p m : Nat) : skipped (pulls c cur p m) = m := by
  induction m generalizing p with
  | zero => rfl
  | succ m ih => simp [pulls_succ, ih, Exchange.bits, Nat.add_comm 1]

theorem skipped_take_le (es : List Exchange) (k : Nat) : skipped (es.take k) ≤ skipped es := by
  calc skipped (es.take k) ≤ skipped (es.take k) + skipped (es.drop k) := Nat.le_add_right _ _
    _ = skipped es := by rw [← skipped_append, List.take_append_drop]

/-- The first two requests skip nothing, the third skips the `n` bits, and the rest pull at most `m` more. -/
theorem skipped_take_opening_pulls (s : State) (c : CursorId) (cur : Cursor) (n p m k : Nat) :
    skipped ((opening s c n ++ pulls c cur p m).take k) = 0 ∨
      ∃ j, j ≤ m ∧ skipped ((opening s c n ++ pulls c cur p m).take k) = n + j := by
  match k with
  | 0 | 1 | 2 => exact .inl rfl
  | k + 3 =>
    have hle := skipped_take_le (pulls c cur p m) k
    rw [skipped_pulls] at hle
    exact .inr ⟨_, hle, by simp [opening, Exchange.bits]⟩

/-- A decode against a book pulls nothing after a hit, and at most a bit for every bucket after a miss (R154, R156). -/
theorem State.decodeSymbol_script (s : State) (c : CursorId) :
    ∃ n m r, s.decodeSymbol c = ((s.opened c n).pull c m).respond r ∧
      (m = 0 ∨ (n = s.params.P ∧ m ≤ s.nbuckets)) := by
  rcases s.decodeSymbol_cases c with ⟨sym, len, -, h⟩ | ⟨-, ⟨i, sym, hi, h⟩ | h⟩
  · exact ⟨len, 0, _, h, .inl rfl⟩
  · exact ⟨_, i + 1, _, h, .inr ⟨rfl, hi⟩⟩
  · exact ⟨_, _, _, h, .inr ⟨rfl, le_rfl⟩⟩

/-- The requests of a decode replay, and the first `k` of them move its cursor as R201 lists. -/
theorem exec_decode_replaysAll {s v : State} {c : CursorId} (hwf : Memory.wf s.mem)
    (h : exec (.decode c) s = .next v) :
    ∃ es, v.requests = s.requests ++ es ∧ s.ReplaysAll c es ∧ ∀ k, skipped (es.take k) = 0 ∨
      (∃ j, j ≤ s.nbuckets ∧ skipped (es.take k) = s.params.P + j) ∨ OnlyMoves c (skipped (es.take k)) s v := by
  rcases execDecode_next h with ⟨-, rfl⟩ | ⟨-, -, rfl⟩
  · exact ⟨[], by simp, trivial, fun k => .inl (by simp)⟩
  obtain ⟨n, m, r, hscript, hpath⟩ := s.decodeSymbol_script c
  obtain ⟨hmoves, hrequests, -⟩ := State.opened_pull_respond hwf c n m r
  have hpulls := State.replaysAll_pulls (s.wf_opened hwf c n) c m
  obtain ⟨hcursor, -⟩ := s.opened_onlyMoves hwf c n
  rw [hcursor, pulls_advance, Cursor.advance_pos] at hpulls
  rw [hscript]
  refine ⟨_, hrequests.trans (List.append_assoc _ _ _),
    (State.replaysAll_opening hwf c n).append (by rwa [foldl_reissue_opening]), fun k => ?_⟩
  refine (skipped_take_opening_pulls s c _ n _ m k).imp_right fun ⟨j, hj, hskipped⟩ => ?_
  rcases hpath with rfl | ⟨rfl, hm⟩
  · obtain rfl : j = 0 := Nat.le_zero.1 hj
    exact .inr (hskipped ▸ hmoves)
  · exact .inl ⟨j, hj.trans hm, hskipped⟩

/-! ## A reset inside a command (R201) -/

/-- A command byte other than that of `DECODE` selects a build: the encoding determines the byte (R94). -/
theorem isBuild_of_decode_command {cmd : Byte} {ops : List Operand} {i : Instr} (hcmd : cmd ≠ 0x03#8)
    (h : decode (.command cmd ops) = .ok i) : IsBuild i := by
  obtain ⟨-, henc⟩ := encodeOfDecodeIsIdentity _ i h
  cases i with
  | buildTable maxLength t => exact .inl ⟨maxLength, t, rfl⟩
  | buildFreq ps => exact .inr ⟨ps, rfl⟩
  | decode c =>
    obtain ⟨rfl, -⟩ := Transaction.command.inj henc
    exact absurd rfl hcmd
  | isMsbFirst c => cases henc
  | peekBits c n => cases henc
  | skip c n => cases henc

/-- A command other than `DECODE` issues no request. -/
theorem runLaunch_command_requests {cmd : Byte} {ops : List Operand} {s u : State} (hcmd : cmd ≠ 0x03#8)
    (h : runLaunch (.command cmd ops) s = .next u) : u.requests = s.requests := by
  rcases runLaunch_next h with ⟨i, hi, hu⟩ | ⟨-, rfl⟩
  · obtain ⟨-, -, -, -, hrequests⟩ :=
      bookIsValidExactlyAfterSuccess s u i (isBuild_of_decode_command hcmd hi) hu
    exact hrequests
  · rfl

/-- Settles O54: any other command has no request to issue again; the requests of a `DECODE` replay. -/
theorem resetInsideACommandAbandonsIt : Obligations.ResetInsideACommandAbandonsIt := by
  constructor
  · intro s t cmd ops k rest hs h
    have hparams := step_params h
    have hinbox := stepTakesInputsInOrder s t _ rest hs h
    rw [step_cons hs] at h
    obtain ⟨u, hu, rfl⟩ := runResetDuring_next.1 h
    refine ⟨rfl, rfl, hparams, hinbox, fun hcmd => ?_⟩
    rw [runLaunch_command_requests hcmd hu, State.accept_requests, List.take_nil]
    rfl
  · intro s c k rest hs hfail hwf
    obtain ⟨v, hv⟩ := exec_decode_goesOn (s := s.accept) hfail c
    obtain ⟨es, hrequests, hreplay, hpositions⟩ := exec_decode_replaysAll (s := s.accept) hwf hv
    have hfirst := hreplay.take k
    have hlaunch : runLaunch (.command 0x03#8 [.cursor c]) s.accept = .next v :=
      (runLaunch_of_decode rfl s.accept).trans hv
    have hstep : step s = .next (s.accept.abandon (v.requests.take k)) :=
      (step_cons hs).trans (runResetDuring_next.2 ⟨v, hlaunch, rfl⟩)
    rw [State.accept_requests, List.nil_append] at hrequests
    rw [← State.accept_eq hs]
    subst hrequests
    exact ⟨_, v, _, hstep, hv, hfirst.requests, rfl, hfirst.moves, hpositions k⟩

end Sys2Proof.Machine
end

section
/-!
The family other: the invariant after reset (R36), and where cursors can fail a peek (D15, U7).
-/

namespace Sys2Proof.Machine

/-! ## The reset state (R36) -/

/-- The table of the reset state has an entry for each index (R22). -/
theorem State.reset_pt_length : State.reset.slot.pt.length = 2 ^ State.reset.params.P :=
  List.length_replicate

/-- Settles O2: no cursor is placed, the table has its size, and there is no book to be sound. -/
theorem resetStateMeetsInvariant : Obligations.ResetStateMeetsInvariant where
  mem_wf := Memory.wf_reset
  pt_length := State.reset_pt_length
  book hvalid := by cases hvalid

/-! ## Cursors that can fail a peek (D15, U7) -/

section CanFail

variable {s : State} (hfail : s.params.cursorCanFail = true) (c : CursorId)
include hfail

theorem exec_peekBits_of_canFail (n : Fin 33) : exec (.peekBits c n) s = .refused .cursorMayFail :=
  if_pos hfail

/-- A decode asks for a book first; with one it would peek. -/
theorem exec_decode_of_canFail (hb : s.bookValid = true) : exec (.decode c) s = .refused .cursorMayFail := by
  have hbook : ¬ s.bookValid = false := by simp [hb]
  exact (if_neg hbook).trans (if_pos hfail)

end CanFail

/-- Settles O18: both commands ask whether the cursor can fail before they peek. -/
theorem failingCursorsAreRefused : Obligations.FailingCursorsAreRefused :=
  fun _ c n hfail => ⟨exec_peekBits_of_canFail hfail c n, exec_decode_of_canFail hfail c⟩

end Sys2Proof.Machine
end
